-- ==== Sys2Proof/Config.lean ====
section
/-! DEFINITION. What an implementation fixes: the named parameters of 00_scope.md rule R6 as the fields of one configuration
whose defaults are the source's values, the catalog record of 30_encoding.md rule R100, and the three open parameters (D11,
D12, D20) as constants without a body. -/

namespace Sys2Proof

/-- The configuration: every parameter of R6 that has a value, with that value as its default. -/
structure Params where
  /-- `N_PROTOCOLS`: the number of catalog records; valid ids are 1 .. `N_PROTOCOLS`. -/
  nProtocols : Nat := 6
  /-- `CAPACITY` (C1): the number of entries of the timing-frame ring. -/
  capacity : Nat := 67
  /-- `GAP_US`: a duration strictly greater is a long gap. -/
  gapUs : Nat := 5000
  /-- `SYNC_MATCH_US`: a long gap matches when the absolute difference is strictly less. -/
  syncMatchUs : Nat := 200
  /-- `REPEAT_TRIGGER`: the value of `repeat_count` that triggers the decode attempts. -/
  repeatTrigger : Nat := 2
  /-- `MIN_CHANGES`: a decode succeeds only with a longer frame. -/
  minChanges : Nat := 6
  /-- `QUIET_US`: the quiet period after a transmission. -/
  quietUs : Nat := 500000
  /-- `DEFAULT_LEN`: the default bit length of SEND. -/
  defaultLen : Nat := 24
  /-- `WIDE_LEN`: the bit length of protocol `NEXA_PROTO` and of large codes. -/
  wideLen : Nat := 32
  /-- `WIDE_THRESHOLD`: a code strictly greater gets `WIDE_LEN` by default. -/
  wideThreshold : Nat := 16777216
  /-- `NEXA_PROTO`: the protocol id with the leading sync and the doubling. -/
  nexaProto : Nat := 6
  /-- `TIME_W`: the width of the counter and of every timestamp. -/
  timeW : Nat := 64
  /-- `CODE_W`: the width of a code. -/
  codeW : Nat := 64
  /-- `DUR_W` (D5): the width of a frame entry. -/
  durW : Nat := 64
  /-- `RATIO_W` (D10): the width of a catalog ratio. -/
  ratioW : Nat := 8
  /-- `PULSE_W` (D10): the width of a pulse unit in the catalog and in SEND. -/
  pulseW : Nat := 32
  /-- `TX_DEF_PROTO_RESET` (D19): the reset value of `TX_DEF_PROTO`. -/
  txDefProtoReset : Nat := 1
  /-- `TX_DEF_PULSE_RESET` (D19): the reset value of `TX_DEF_PULSE`. -/
  txDefPulseReset : Nat := 0
deriving DecidableEq, Repr

/-- The constraints between parameters that the rules rely on (R7). -/
def Params.Ok (c : Params) : Prop :=
  8 ≤ c.capacity ∧ (c.capacity - 1) / 2 ≤ c.codeW ∧ c.nexaProto ≤ c.nProtocols ∧ c.syncMatchUs ≤ c.gapUs

namespace Config

/-- The configuration of this machine: the defaults of R6 (log entry 16). -/
abbrev params : Params := {}

/-! The fields of the configuration under the names of R6. -/

abbrev nProtocols : Nat := params.nProtocols
abbrev capacity : Nat := params.capacity
abbrev gapUs : Nat := params.gapUs
abbrev syncMatchUs : Nat := params.syncMatchUs
abbrev repeatTrigger : Nat := params.repeatTrigger
abbrev minChanges : Nat := params.minChanges
abbrev quietUs : Nat := params.quietUs
abbrev defaultLen : Nat := params.defaultLen
abbrev wideLen : Nat := params.wideLen
abbrev wideThreshold : Nat := params.wideThreshold
abbrev nexaProto : Nat := params.nexaProto
abbrev timeW : Nat := params.timeW
abbrev codeW : Nat := params.codeW
abbrev durW : Nat := params.durW
abbrev ratioW : Nat := params.ratioW
abbrev pulseW : Nat := params.pulseW
abbrev txDefProtoReset : Nat := params.txDefProtoReset
abbrev txDefPulseReset : Nat := params.txDefPulseReset

/-! Widths and bounds of the rules that R6 does not list: derived from its parameters where the rule derives them. -/

/-- The largest ratio (R100). -/
abbrev maxRatio : Nat := 2 ^ ratioW - 1
/-- The largest pulse unit of a record (R100). -/
abbrev maxBaseUnit : Nat := 2 ^ pulseW - 1
/-- The width of `pending_delay_us`, `RATIO_W + PULSE_W` (R45). -/
abbrev delayW : Nat := ratioW + pulseW
/-- The width of a catalog record, one base unit and six ratios (R100). -/
abbrev recordW : Nat := pulseW + 6 * ratioW
/-- The width of `tx_bits`, the longest on-air bit string (R39, R41, R201). -/
abbrev maxLen : Nat := 64
/-- The longest source bit string of protocol `NEXA_PROTO`, whose doubled string fits `tx_bits` (R201). -/
abbrev maxNexaLen : Nat := maxLen / 2
/-- The width of a protocol id in registers and commands (R31, R35, R37, R87). -/
abbrev protoIdW : Nat := 8
/-- The width of a percentage, `RX_TOL` (R25). -/
abbrev percentW : Nat := 8
/-- The width of a number of passes (R34, R43). -/
abbrev passW : Nat := 8
/-- The width of `repeat_count` (R23). -/
abbrev repeatW : Nat := 2
/-- The width of `msg_bit_length` (R29). -/
abbrev msgLenW : Nat := 8
/-- The width of `tx_bit_length` and `tx_bit_idx`, 0 .. 64 (R39, R42). -/
abbrev bitIdxW : Nat := 7
/-- The width of a value on the host port: REGWR's, and REGRD's answer (R87, R92). -/
abbrev portW : Nat := 64

end Config

/-- A ratio of a catalog record, an integer 1 .. `maxRatio` (R100, R122: "all ratios > 0"). It is held as the ratio
less one, so that every value of the type is a legal ratio (log entry 5). -/
structure Ratio where
  pred : Fin (Config.maxRatio - 1 + 1)
deriving DecidableEq, Repr, Inhabited

/-- The ratio as a number, 1 .. 255. -/
def Ratio.toNat (r : Ratio) : Nat := r.pred.val + 1

/-- The `pulse_unit_us` of a catalog record, an integer 1 .. `maxBaseUnit` (R100), held less one (log entry 5). -/
structure BaseUnit where
  pred : Fin (Config.maxBaseUnit - 1 + 1)
deriving DecidableEq, Repr, Inhabited

/-- The base unit as a number of microseconds, 1 .. 2^32 - 1. -/
def BaseUnit.toNat (u : BaseUnit) : Nat := u.pred.val + 1

/-- A catalog record, in the source's field order (R100, R120). -/
structure Protocol where
  pulseUnitUs : BaseUnit
  syncHigh : Ratio
  syncLow : Ratio
  zeroHigh : Ratio
  zeroLow : Ratio
  oneHigh : Ratio
  oneLow : Ratio
deriving DecidableEq, Repr, Inhabited

namespace Config

/-- `CATALOG` (R6, R122, D11), OPEN: the records of ids 1 .. 6, id p at index p - 1. No value of it can be proved. -/
opaque catalog : Vector Protocol nProtocols
/-- `TOLERANCE_RESET` (R6, R302, D12), OPEN: the reset value of `RX_TOL`. -/
opaque toleranceReset : BitVec percentW
/-- `TX_REPEAT_RESET` (R6, R302, D20), OPEN: the reset value of `TX_REPEAT`. -/
opaque txRepeatReset : BitVec passW

end Config
end Sys2Proof
end

