-- ==== Sys2Proof/Word.lean ====
section
/-! DEFINITION. The block's numbers, each of a width that Config.lean names. -/

namespace Sys2Proof

/-- A value of the microsecond counter, and every timestamp: `TIME_W` bits (R6, R280). -/
abbrev Time := BitVec Config.timeW

/-- One entry of the timing-frame ring, and a unit derived from one: `DUR_W` bits, microseconds (R6, R21, R30). -/
abbrev Duration := BitVec Config.durW

/-- A transmitted or received code: `CODE_W` bits (R6, R27). -/
abbrev CodeWord := BitVec Config.codeW

/-- A pulse unit in microseconds: `PULSE_W` bits (R6, R36). -/
abbrev PulseUnit := BitVec Config.pulseW

/-- A ratio as bits: `RATIO_W` of them (R6, R100). -/
abbrev RatioBits := BitVec Config.ratioW

/-- The length of a phase in microseconds: `RATIO_W + PULSE_W` bits (R45). -/
abbrev Delay := BitVec Config.delayW

/-- A protocol id as registers and commands carry it (R31, R35, R87). -/
abbrev ProtoId := BitVec Config.protoIdW

/-- A tolerance in percent (R25). -/
abbrev Percent := BitVec Config.percentW

/-- A number of passes (R34, R43). -/
abbrev PassCount := BitVec Config.passW

/-- A number of matching sync gaps (R23). -/
abbrev RepeatCount := BitVec Config.repeatW

/-- The length of a decoded message in bits (R29). -/
abbrev MsgLength := BitVec Config.msgLenW

/-- A number of on-air bits, or the index of one (R39, R42). -/
abbrev BitIndex := BitVec Config.bitIdxW

/-- The on-air bits of one pass (R41). -/
abbrev BitString := BitVec Config.maxLen

/-- A value on the host port (R87, R92). -/
abbrev PortValue := BitVec Config.portW

/-- A host command word: format H, 128 bits (R87). -/
abbrev CommandWord := BitVec 128

/-- A catalog record as bits: format C (R100). -/
abbrev RecordWord := BitVec Config.recordW

end Sys2Proof
end

