-- ==== Sys2Proof/Syntax.lean ====
section
/-! DEFINITION. The operations of 30_encoding.md rule R85, one constructor per row of spec/opcode_table.json, and the
codes the spec gives them: the input ports (formats E, H, R), the transmitter's pattern (format T) and the segment kind. -/

namespace Sys2Proof

/-- The operands of SEND (R89, R195): the optional protocol id, pulse unit and bit length are pairs of a valid bit and a
field. A field whose valid bit is 0 is ignored, and kept here so that no bit of the word is dropped. -/
structure SendArgs where
  pv : Bool
  proto : ProtoId
  uv : Bool
  unit : PulseUnit
  lv : Bool
  len : BitVec 8
  code : CodeWord
deriving DecidableEq, Repr

/-- The operations (R85). The counter value `now` of EDGE, SEND, DECODE and the transmitter's steps is no field: it is the
counter input at the instant of the step (R9). -/
inductive Instr where
  /-- NOP (R249). -/
  | nop
  /-- SEND (R195). -/
  | send (a : SendArgs)
  /-- REGWR (R241). -/
  | regwr (idx : BitVec 8) (value : PortValue)
  /-- REGRD (R243). -/
  | regrd (idx : BitVec 8)
  /-- MSGTAKE (R182). -/
  | msgtake
  /-- CATRD (R123). -/
  | catrd (proto : ProtoId)
  /-- EDGE (R132). -/
  | edge
  /-- TX.RISE in `LEAD_SYNC`, pattern 0010 (R213, R102). -/
  | txRiseLeadSync
  /-- TX.FALL in `LEAD_SYNC`, pattern 0011 (R214, R102). -/
  | txFallLeadSync
  /-- TX.RISE in `BITS`, pattern 0100. -/
  | txRiseBits
  /-- TX.FALL in `BITS`, pattern 0101. -/
  | txFallBits
  /-- TX.RISE in `TRAIL_SYNC`, pattern 0110. -/
  | txRiseTrailSync
  /-- TX.FALL in `TRAIL_SYNC`, pattern 0111. -/
  | txFallTrailSync
  /-- TX.DONE in `QUIET`, pattern 1000 (R215). -/
  | txDone
  /-- DECODE(p, cc, now) (R155): a procedure of EDGE. `cc` is 0 .. 66. -/
  | decodeTry (p : ProtoId) (cc : Fin Config.capacity)
  /-- MATCH(d, ratio, unit) (R157): a procedure of DECODE. -/
  | matchDur (d : Duration) (ratio : RatioBits) (unit : Duration)
  /-- SEG.L0 (R208): one TX.RISE and one TX.FALL of the zero-bit segment. -/
  | segL0
  /-- SEG.L1 (R209). -/
  | segL1
  /-- SEG.SYNC (R210). -/
  | segSync
  /-- RESET (R301). -/
  | reset
deriving DecidableEq, Repr

/-- What stands on an input port of the block (R286): the edge strobe (format E), a command word (format H), the reset
input (format R). -/
inductive Input where
  | rxEdge (b : BitVec 1)
  | command (w : CommandWord)
  | resetIn (b : BitVec 1)
deriving DecidableEq, Repr

/-- A code of an operation (R109): what stands on an input port, the 4-bit pattern of format T, or the 2-bit segment
kind. DECODE and MATCH have none. -/
inductive OpCode where
  | input (x : Input)
  | txPattern (p : BitVec 4)
  | segKind (k : BitVec 2)
deriving DecidableEq, Repr

end Sys2Proof
end

