-- ==== Sys2Proof/WellFormed.lean ====
section
/-! DEFINITION. Which operations are well formed: the operand ranges the spec gives. Every command of format H is, with
every operand (a bad catalog index or register index has a defined answer: R123, R244). -/

namespace Sys2Proof

/-- A catalog index that has a record: 1 .. `N_PROTOCOLS` (R67, R120). -/
def isProtocolId (p : Nat) : Bool := decide (1 ≤ p) && decide (p ≤ Config.nProtocols)

/-- The operand ranges: DECODE's `p` is in 1 .. `N_PROTOCOLS` (R155; its `cc` is in range by type), MATCH's ratio is one
of a record, 1 .. 255 (R100). -/
def Instr.wf : Instr → Bool
  | .nop => true
  | .send _ => true
  | .regwr _ _ => true
  | .regrd _ => true
  | .msgtake => true
  | .catrd _ => true
  | .edge => true
  | .txRiseLeadSync => true
  | .txFallLeadSync => true
  | .txRiseBits => true
  | .txFallBits => true
  | .txRiseTrailSync => true
  | .txFallTrailSync => true
  | .txDone => true
  | .decodeTry p _ => isProtocolId p.toNat
  | .matchDur _ ratio _ => decide (ratio ≠ 0)
  | .segL0 => true
  | .segL1 => true
  | .segSync => true
  | .reset => true

end Sys2Proof
end

