-- ==== Sys2Proof/Decode.lean ====
section
/-! DEFINITION. Reading an operation from its code, total, every rejection named; after it the encoder, from the same
tables of 30_encoding.md (R86 to R93, R102, R109). -/

namespace Sys2Proof

/-- Why a code is no operation. -/
inductive Reject where
  /-- `op` is 6 .. 15 (R88, R93). -/
  | reservedOp (op : Nat)
  /-- SEND with `rsv` not 0 (R87, R93). -/
  | reservedField
  /-- A bit that the command requires to be 0 is 1 (R90, R91, R93). -/
  | mustBeZero
  /-- `rx_edge` = 0 starts nothing (R86). -/
  | noEdge
  /-- The reset input is at 0 (R109). -/
  | noReset
  /-- A pattern of format T that enables no step: 0000, or one never reached (R102). -/
  | noTxStep (pattern : Nat)
  /-- Segment kind 3, never produced (R102). -/
  | noSegment
deriving DecidableEq, Repr

/-! The fields of format H (R87). -/

def opField (w : CommandWord) : BitVec 4 := w.extractLsb' 124 4
def rsvField (w : CommandWord) : BitVec 9 := w.extractLsb' 115 9
def pvField (w : CommandWord) : Bool := w.getLsbD 114
def protoField (w : CommandWord) : ProtoId := w.extractLsb' 106 8
def uvField (w : CommandWord) : Bool := w.getLsbD 105
def unitField (w : CommandWord) : PulseUnit := w.extractLsb' 73 32
def lvField (w : CommandWord) : Bool := w.getLsbD 72
def lenField (w : CommandWord) : BitVec 8 := w.extractLsb' 64 8
def codeField (w : CommandWord) : BitVec 64 := w.extractLsb' 0 64

/-- Every bit below `op`. -/
def belowOp (w : CommandWord) : BitVec 124 := w.extractLsb' 0 124
/-- Bits 123:72, which REGWR and REGRD require to be 0 (R90). -/
def aboveIdx (w : CommandWord) : BitVec 52 := w.extractLsb' 72 52
/-- Bits 123:114, which CATRD requires to be 0 (R91). -/
def aboveProto (w : CommandWord) : BitVec 10 := w.extractLsb' 114 10
/-- Bits 105:0, which CATRD requires to be 0 (R91). -/
def belowProto (w : CommandWord) : BitVec 106 := w.extractLsb' 0 106

/-- The operands of SEND (R89). -/
def sendArgs (w : CommandWord) : SendArgs :=
  { pv := pvField w, proto := protoField w, uv := uvField w, unit := unitField w, lv := lvField w, len := lenField w,
    code := codeField w }

/-- The command that a format-H word holds (R88 to R91), or why it is reserved (R93). -/
def decodeCommand (w : CommandWord) : Except Reject Instr :=
  match (opField w).toNat with
  | 0 => if belowOp w = 0 then .ok .nop else .error .mustBeZero
  | 1 => if rsvField w = 0 then .ok (.send (sendArgs w)) else .error .reservedField
  | 2 => if aboveIdx w = 0 then .ok (.regwr (lenField w) (codeField w)) else .error .mustBeZero
  | 3 => if aboveIdx w = 0 ∧ codeField w = 0 then .ok (.regrd (lenField w)) else .error .mustBeZero
  | 4 => if belowOp w = 0 then .ok .msgtake else .error .mustBeZero
  | 5 => if aboveProto w = 0 ∧ belowProto w = 0 then .ok (.catrd (protoField w)) else .error .mustBeZero
  | n => .error (.reservedOp n)

/-- The operation that an input port starts (R86, R87, R109). -/
def decodeInput : Input → Except Reject Instr
  | .rxEdge b => if b = 1 then .ok .edge else .error .noEdge
  | .command w => decodeCommand w
  | .resetIn b => if b = 1 then .ok .reset else .error .noReset

/-- The transmitter's step that the pattern `tx_state`, `tx_pin` enables (R102). -/
def decodeTxPattern (p : BitVec 4) : Except Reject Instr :=
  match p.toNat with
  | 0b0010 => .ok .txRiseLeadSync
  | 0b0011 => .ok .txFallLeadSync
  | 0b0100 => .ok .txRiseBits
  | 0b0101 => .ok .txFallBits
  | 0b0110 => .ok .txRiseTrailSync
  | 0b0111 => .ok .txFallTrailSync
  | 0b1000 => .ok .txDone
  | n => .error (.noTxStep n)

/-- The segment of a 2-bit kind code (R102, R109). -/
def decodeSegKind (k : BitVec 2) : Except Reject Instr :=
  match k.toNat with
  | 0 => .ok .segL0
  | 1 => .ok .segL1
  | 2 => .ok .segSync
  | _ => .error .noSegment

/-- The decoder. -/
def decode : OpCode → Except Reject Instr
  | .input x => decodeInput x
  | .txPattern p => decodeTxPattern p
  | .segKind k => decodeSegKind k

/-! The encoder, from the same tables. -/

/-- A format-H word from its fields, the most significant first, with the widths of the format (R87). -/
def commandWord (op : BitVec 4) (pv : Bool) (proto : BitVec 8) (uv : Bool) (unit : BitVec 32) (lv : Bool)
    (len : BitVec 8) (code : BitVec 64) : CommandWord :=
  op ++ (0 : BitVec 9) ++ BitVec.ofBool pv ++ proto ++ BitVec.ofBool uv ++ unit ++ BitVec.ofBool lv ++ len ++ code

/-- The code of an operation; none for DECODE and MATCH, which nothing selects but the control flow of EDGE (R109). -/
def encode : Instr → Option OpCode
  | .nop => some (.input (.command (commandWord 0 false 0 false 0 false 0 0)))
  | .send a => some (.input (.command (commandWord 1 a.pv a.proto a.uv a.unit a.lv a.len a.code)))
  | .regwr idx value => some (.input (.command (commandWord 2 false 0 false 0 false idx value)))
  | .regrd idx => some (.input (.command (commandWord 3 false 0 false 0 false idx 0)))
  | .msgtake => some (.input (.command (commandWord 4 false 0 false 0 false 0 0)))
  | .catrd proto => some (.input (.command (commandWord 5 false proto false 0 false 0 0)))
  | .edge => some (.input (.rxEdge 1))
  | .txRiseLeadSync => some (.txPattern 0b0010)
  | .txFallLeadSync => some (.txPattern 0b0011)
  | .txRiseBits => some (.txPattern 0b0100)
  | .txFallBits => some (.txPattern 0b0101)
  | .txRiseTrailSync => some (.txPattern 0b0110)
  | .txFallTrailSync => some (.txPattern 0b0111)
  | .txDone => some (.txPattern 0b1000)
  | .decodeTry _ _ => none
  | .matchDur _ _ _ => none
  | .segL0 => some (.segKind 0)
  | .segL1 => some (.segKind 1)
  | .segSync => some (.segKind 2)
  | .reset => some (.input (.resetIn 1))

/-! The opcode table's numbering of the codes (log entry 14). -/

/-- The code that a table row's bits `w` stand for, when the row has `nbits` bits: format H has 128; the narrow formats
have 1 (E), 2 (segment kind) or 4 (T) bits. Rounded up to a byte they overlap: there 0 and 1 are read as the edge strobe
and 2 .. 15 as a pattern of format T. -/
def tableCode (nbits w : Nat) : OpCode :=
  if 8 < nbits then .input (.command (BitVec.ofNat 128 w))
  else if nbits = 2 then .segKind (BitVec.ofNat 2 w)
  else if w ≤ 1 then .input (.rxEdge (BitVec.ofNat 1 w))
  else if w < 16 then .txPattern (BitVec.ofNat 4 w)
  else .txPattern 0

/-- The operation the decoder reads from a table row's bits. -/
def decodeTableWord (nbits w : Nat) : Option Instr :=
  match decode (tableCode nbits w) with
  | .ok i => some i
  | .error _ => none

end Sys2Proof
end

