-- ==== Sys2Proof/Machine/State.lean ====
section
/-! DEFINITION. The state of the block (10_state.md), grouped by the agent that writes it (R20), the model's own fields for
the block's inputs and outputs, the reset state (R54), and the reasons a step can stop. -/

namespace Sys2Proof.Machine

/-- Capture state (R21 to R24), written only by RX. -/
structure Capture where
  /-- `frame` (R21): the timing-frame ring. -/
  frame : Vector Duration Config.capacity
  /-- `last_edge_timestamp` (R22). -/
  lastEdgeTimestamp : Time
  /-- `repeat_count` (R23). -/
  repeatCount : RepeatCount
  /-- `change_count` (R24), 0 .. `CAPACITY` (log entry 15). -/
  changeCount : Fin (Config.capacity + 1)
deriving DecidableEq, Repr

/-- A decoded message (R101): the five message registers (R27 to R31). -/
structure Message where
  /-- `msg_code` (R27). -/
  code : CodeWord
  /-- `msg_timestamp` (R28). -/
  timestamp : Time
  /-- `msg_bit_length` (R29). -/
  bitLength : MsgLength
  /-- `msg_pulse_unit_us` (R30). -/
  pulseUnitUs : Duration
  /-- `msg_protocol_id` (R31). -/
  protocolId : ProtoId
deriving DecidableEq, Repr

/-- Configuration (R25, R26, R33 to R36), written only by HOST. -/
structure HostConfig where
  /-- `tolerance_percent`, register `RX_TOL` (R25). -/
  tolerancePercent : Percent
  /-- `rx_en`, bit 0 of `CTRL` (R26). -/
  rxEn : Bool
  /-- `tx_en`, bit 1 of `CTRL` (R33). -/
  txEn : Bool
  /-- `TX_REPEAT` (R34). -/
  txRepeat : PassCount
  /-- `TX_DEF_PROTO` (R35). -/
  txDefProto : ProtoId
  /-- `TX_DEF_PULSE` (R36). -/
  txDefPulse : PulseUnit
deriving DecidableEq, Repr

/-- The values of `tx_state` (R40). -/
inductive TxState where
  | idle
  | leadSync
  | bits
  | trailSync
  | quiet
deriving DecidableEq, Repr

/-- The values of `tx_result` (R48). -/
inductive TxResult where
  | none
  | ok
  | failDisabled
  | failUnknownProtocol
  | failArgRange
deriving DecidableEq, Repr

/-- Transmitter state (R37 to R48), written by HOST at the acceptance of SEND and by TX. -/
structure Transmitter where
  /-- `tx_protocol_id` (R37). -/
  protocolId : ProtoId
  /-- `tx_pulse_unit_us` (R38). -/
  pulseUnitUs : PulseUnit
  /-- `tx_bit_length` (R39). -/
  bitLength : BitIndex
  /-- `tx_state` (R40). -/
  state : TxState
  /-- `tx_bits` (R41). -/
  bits : BitString
  /-- `tx_bit_idx` (R42). -/
  bitIdx : BitIndex
  /-- `tx_pass_left` (R43). -/
  passLeft : PassCount
  /-- `segment_start_timestamp` (R44). -/
  segmentStart : Time
  /-- `pending_delay_us` (R45). -/
  pendingDelay : Delay
  /-- `tx_quiet_start` (R46). -/
  quietStart : Time
  /-- `tx_pin` (R47). -/
  pin : Bool
  /-- `tx_result` (R48). -/
  result : TxResult
deriving DecidableEq, Repr

/-- What a step puts on the host response port (R92). The last two are no host responses: they are what a procedure called
by itself returns to its caller (R155, R157; log entry 8). -/
inductive Response where
  /-- The result of a SEND (R205, R215). -/
  | send (r : TxResult)
  /-- The value of REGRD (R243). -/
  | value (v : PortValue)
  /-- The flag and the message of MSGTAKE (R182). -/
  | message (pending : Bool) (m : Message)
  /-- The record of CATRD; none is `valid` = 0 with every field 0 (R123). -/
  | record (r : Option Protocol)
  /-- Success or failure of DECODE (R155). -/
  | decoded (success : Bool)
  /-- The truth of MATCH (R157). -/
  | matched (fits : Bool)
deriving DecidableEq, Repr

/-- What the environment does at its turn: something stands on an input port, or the SEND waiting on the command port is
taken (R196). -/
inductive Stimulus where
  | input (x : Input)
  | accept
deriving DecidableEq, Repr

/-- One turn of the environment: its counter value, whether a transmitter step due at that same value goes first (R271
fixes no order), and what happens (log entry 1). -/
structure Turn where
  time : Time
  txFirst : Bool
  what : Stimulus
deriving DecidableEq, Repr

/-- The state: what 10_state.md gives the block, the SEND waiting on the command port (R196), and the model's own fields
`now` (R9, R280), `turns` (R9, R73) and `response` (R92). -/
structure State where
  cap : Capture
  msg : Message
  /-- `msg_pending` (R32). -/
  msgPending : Bool
  cfg : HostConfig
  tx : Transmitter
  /-- `CATALOG` (R50), written by no operation; id p at index p - 1. -/
  catalog : Vector Protocol Config.nProtocols
  /-- The SEND commands presented and not yet taken, oldest first (R196; log entry 4). -/
  waiting : List SendArgs
  /-- The counter value at the instant of the latest step (R9, R280; log entry 2). -/
  now : Time
  /-- The environment's turns still to come, in order (log entry 1). -/
  turns : List Turn
  /-- The response port after the latest step (R92; log entry 7). -/
  response : Option Response
deriving DecidableEq, Repr

/-- The capture state after reset (R54). -/
def Capture.reset : Capture :=
  { frame := Vector.replicate Config.capacity 0, lastEdgeTimestamp := 0, repeatCount := 0, changeCount := 0 }

/-- The message registers after reset (R54). -/
def Message.reset : Message := { code := 0, timestamp := 0, bitLength := 0, pulseUnitUs := 0, protocolId := 0 }

/-- The configuration after reset (R54, R302). -/
def HostConfig.reset : HostConfig :=
  { tolerancePercent := Config.toleranceReset, rxEn := false, txEn := false, txRepeat := Config.txRepeatReset,
    txDefProto := BitVec.ofNat Config.protoIdW Config.txDefProtoReset,
    txDefPulse := BitVec.ofNat Config.pulseW Config.txDefPulseReset }

/-- The transmitter after reset (R54). -/
def Transmitter.reset : Transmitter :=
  { protocolId := 0, pulseUnitUs := 0, bitLength := 0, state := .idle, bits := 0, bitIdx := 0, passLeft := 0,
    segmentStart := 0, pendingDelay := 0, quietStart := 0, pin := false, result := .none }

/-- The block right after reset (R54, R301). The counter is an input that reset does not touch (R280): its 0 here is the
model's choice (log entry 2), as are the empty lists of inputs (log entries 1, 4). -/
def State.reset : State :=
  { cap := Capture.reset, msg := Message.reset, msgPending := false, cfg := HostConfig.reset, tx := Transmitter.reset,
    catalog := Config.catalog, waiting := [], now := 0, turns := [], response := Option.none }

/-- Where the block stops. Both are states that no run reaches (log entry 10), so both are safe. -/
inductive Fault where
  /-- A transmitter step or a directly called DECODE names a record the catalog does not have: "an error, never a read of
  some default record" (R67). Raised by the TX steps, the SEG operations and DECODE. Safe. -/
  | noSuchRecord
  /-- The current bit of state `BITS` does not exist, `tx_bit_idx` >= `tx_bit_length` (R224). Raised by the TX steps and
  the SEG operations. Safe. -/
  | noCurrentBit
deriving DecidableEq, Repr

/-- What has no meaning. -/
inductive Refusal where
  /-- An operation whose meaning is not written. Raised by exec's arms only. Safe. -/
  | notModelled (mnemonic : String)
  /-- A reserved command word: "A model should refuse such a word" (R93). Raised by the step. Safe. -/
  | reservedCommand (w : CommandWord)
  /-- A transmitter step whose enabling condition does not hold, or a segment the state does not select: the block takes
  no such step (R102, R213 to R215). Raised by the TX steps and the SEG operations, never by the step. Safe (log entry 9). -/
  | notEnabled
deriving DecidableEq, Repr

/-- The outcome of a step of this block. -/
abbrev Result := Host.Outcome State Fault Refusal

end Sys2Proof.Machine
end

