-- ==== Sys2Proof/Machine/Ops.lean ====
section
/-! DEFINITION. The named operations over the state: arithmetic of times and durations (20_memory.md), the three storage
spaces, the response port, and the two hand-offs that stand where a processor has exceptions (R273): the commit of a
message and the failure of a SEND. -/

namespace Sys2Proof.Machine

/-! ## Arithmetic (R11, R79, R80) -/

/-- `tsub(a, b)`: elapsed time from `b` to `a` on the wrapping counter (R79). -/
def tsub (a b : Time) : Time := a - b

/-- `absdiff(a, b)`: never negative, never wraps (R80). -/
def absdiff (a b : Nat) : Nat := if b ≤ a then a - b else b - a

/-- `trunc_N` (R242). -/
def trunc (n : Nat) (v : PortValue) : BitVec n := v.setWidth n

/-- `zext_64` (R243): as wide as the host port. -/
def zext64 {n : Nat} (v : BitVec n) : PortValue := v.setWidth Config.portW

/-! ## The storage spaces (R60) -/

/-- `frame[i]` (R61). Every index the rules form is below `CAPACITY` (R66), so the 0 stands for nothing that is read. -/
def frameAt (f : Vector Duration Config.capacity) (i : Nat) : Duration := (getElem? f i).getD 0

/-- `CATALOG[p]`: none outside 1 .. `N_PROTOCOLS` (R62, R67). -/
def protocolAt (c : Vector Protocol Config.nProtocols) (p : Nat) : Option Protocol :=
  if isProtocolId p then getElem? c (p - 1) else none

/-- A ratio of a record as its bits (R100). -/
def ratioBits (r : Ratio) : RatioBits := BitVec.ofNat Config.ratioW r.toNat

/-- The base unit of a record as its bits, a pulse unit (R100). -/
def baseUnitBits (u : BaseUnit) : PulseUnit := BitVec.ofNat Config.pulseW u.toNat

/-- `frame[change_count] <- duration; change_count <- change_count + 1` (R140). -/
def Capture.store (c : Capture) (d : Duration) : Capture :=
  { c with frame := c.frame.setIfInBounds c.changeCount.val d, changeCount := Fin.ofNat _ (c.changeCount.val + 1) }

/-- `last_edge_timestamp <- now` (R131). -/
def Capture.stamp (c : Capture) (t : Time) : Capture := { c with lastEdgeTimestamp := t }

/-- A matching long gap: `repeat_count` up, `change_count` down, not below 0 (R135). -/
def Capture.countMatch (c : Capture) : Capture :=
  { c with repeatCount := c.repeatCount + 1, changeCount := ⟨c.changeCount.val - 1, by omega⟩ }

/-- `repeat_count <- 0` (R138). -/
def Capture.clearRepeat (c : Capture) : Capture := { c with repeatCount := 0 }

/-- `change_count <- 0` (R136). -/
def Capture.startFrame (c : Capture) : Capture := { c with changeCount := 0 }

/-- The overflow guard (R139). -/
def Capture.guardOverflow (c : Capture) : Capture :=
  if Config.capacity ≤ c.changeCount.val then { c with changeCount := 0, repeatCount := 0 } else c

/-! ## The response port and the counter -/

/-- The step answers nothing on the response port. -/
def State.silent (s : State) : State := { s with response := none }

/-- `respond(...)` (R11, R92). -/
def State.respond (s : State) (r : Response) : State := { s with response := some r }

/-- The counter stands at `t` (R9). -/
def State.setNow (s : State) (t : Time) : State := { s with now := t }

/-- The turns still to come. -/
def State.setTurns (s : State) (ts : List Turn) : State := { s with turns := ts }

/-- The SENDs still waiting. -/
def State.setWaiting (s : State) (w : List SendArgs) : State := { s with waiting := w }

/-- The capture state is replaced. -/
def State.setCap (s : State) (c : Capture) : State := { s with cap := c }

/-- The configuration is replaced. -/
def State.setCfg (s : State) (c : HostConfig) : State := { s with cfg := c }

/-- The transmitter state is replaced. -/
def State.setTx (s : State) (t : Transmitter) : State := { s with tx := t }

/-! ## The hand-offs in the place of exceptions -/

/-- A successful decode: the five message registers and `msg_pending` in one step (R163, R273). -/
def State.commitMessage (s : State) (m : Message) : State := { s with msg := m, msgPending := true }

/-- The return from the notification: `msg_pending <- 0` (R182, R278). -/
def State.clearPending (s : State) : State := { s with msgPending := false }

/-- `fail(r)`: `tx_result <- r; respond(r)` and nothing else (R195, R205). -/
def State.failSend (s : State) (r : TxResult) : State :=
  { s with tx := { s.tx with result := r }, response := some (.send r) }

/-- One step after another; the first stop ends both. -/
def andThen (o : Result) (k : State → Result) : Result :=
  match o with
  | .next s => k s
  | .fault f => .fault f
  | .refused r => .refused r

end Sys2Proof.Machine
end

