-- ==== Sys2Proof/Machine/Flags.lean ====
section
/-! DEFINITION. The status flags (R49, R52, R181), the codes of the enumerated registers (R40, R48), the views `CTRL` and
`STATUS` (R246, R247) and the transmitter's pattern (R102). -/

namespace Sys2Proof.Machine

/-- `tx_busy`: `tx_state` is not `IDLE` (R49). -/
def txBusy (s : State) : Bool := decide (s.tx.state ≠ .idle)

/-- The line `msg_irq`: the level of `msg_pending` (R181). -/
def msgIrq (s : State) : Bool := s.msgPending

/-- The 3-bit code of `tx_state` (R40). -/
def TxState.code : TxState → BitVec 3
  | .idle => 0
  | .leadSync => 1
  | .bits => 2
  | .trailSync => 3
  | .quiet => 4

/-- The 3-bit code of `tx_result` (R48). -/
def TxResult.code : TxResult → BitVec 3
  | .none => 0
  | .ok => 1
  | .failDisabled => 2
  | .failUnknownProtocol => 3
  | .failArgRange => 4

/-- `CTRL`: bit 0 `RX_EN`, bit 1 `TX_EN`, the rest read 0 (R246). -/
def ctrlBits (s : State) : PortValue := zext64 (BitVec.ofBool s.cfg.txEn ++ BitVec.ofBool s.cfg.rxEn)

/-- `STATUS`: bit 0 `MSG_PENDING`, bit 1 `TX_BUSY`, bits 4:2 `TX_RESULT`, the rest read 0 (R247). -/
def statusBits (s : State) : PortValue :=
  zext64 (s.tx.result.code ++ BitVec.ofBool (txBusy s) ++ BitVec.ofBool s.msgPending)

/-- The pattern of format T: `tx_state` above `tx_pin` (R102). -/
def txPattern (t : Transmitter) : BitVec 4 := t.state.code ++ BitVec.ofBool t.pin

end Sys2Proof.Machine
end

