-- ==== Sys2Proof/Machine/Operands.lean ====
section
/-! DEFINITION. What the operands of SEND stand for (R198 to R203), the segment kinds and their ratios (R94, R208 to R210),
and the register file that REGRD and REGWR address (R240). -/

namespace Sys2Proof.Machine

/-! ## SEND -/

/-- The effective protocol id (R198). -/
def effectiveProto (cfg : HostConfig) (a : SendArgs) : ProtoId := if a.pv then a.proto else cfg.txDefProto

/-- The effective pulse unit of the record `r` (R198). -/
def effectiveUnit (cfg : HostConfig) (r : Protocol) (a : SendArgs) : PulseUnit :=
  if a.uv then a.unit
  else if cfg.txDefPulse ≠ 0 then cfg.txDefPulse
  else baseUnitBits r.pulseUnitUs

/-- The effective bit length for protocol `p` (R200): an explicit one wins, then `NEXA_PROTO`, then a large code. -/
def effectiveLen (p : Nat) (a : SendArgs) : Nat :=
  if a.lv then a.len.toNat
  else if p = Config.nexaProto then Config.wideLen
  else if Config.wideThreshold < a.code.toNat then Config.wideLen
  else Config.defaultLen

/-- The arguments that R201 refuses, for protocol `p`, unit `u` and length `l`. -/
def argRangeFails (p u l code : Nat) : Bool :=
  decide (u = 0) || decide (l < 1) || decide (Config.maxLen < l)
    || (decide (p = Config.nexaProto) && decide (Config.maxNexaLen < l)) || decide (2 ^ l ≤ code)

/-- The protocol-6 doubling of the low `l` bits of `code`: bit j becomes the pair (bit j, its complement) at 2j+1 and 2j
(R203). -/
def nexaDouble (code : Nat) : Nat → Nat
  | 0 => 0
  | j + 1 => nexaDouble code j + (if code.testBit j then 2 else 1) * 4 ^ j

/-- A SEND that passed its checks: what R204 latches. -/
structure Accepted where
  proto : ProtoId
  unit : PulseUnit
  onAirLen : Nat
  onAirBits : Nat
deriving DecidableEq, Repr

/-- The checks of SEND in their order, disabled, unknown protocol, argument range, and what is latched when all pass
(R195, R197 to R205, R268). -/
def resolveSend (cfg : HostConfig) (cat : Vector Protocol Config.nProtocols) (a : SendArgs) :
    Except TxResult Accepted :=
  if cfg.txEn = false then .error .failDisabled
  else
    let p := effectiveProto cfg a
    match protocolAt cat p.toNat with
    | none => .error .failUnknownProtocol
    | some r =>
      let u := effectiveUnit cfg r a
      let l := effectiveLen p.toNat a
      if argRangeFails p.toNat u.toNat l a.code.toNat then .error .failArgRange
      else if p.toNat = Config.nexaProto then
        .ok { proto := p, unit := u, onAirLen := 2 * l, onAirBits := nexaDouble a.code.toNat l }
      else .ok { proto := p, unit := u, onAirLen := l, onAirBits := a.code.toNat }

/-! ## Segments -/

/-- The segment kinds (R94). -/
inductive SegKind where
  | zero
  | one
  | sync
deriving DecidableEq, Repr

/-- The high ratio of a kind (R94, R208 to R210, R213). -/
def highRatio (r : Protocol) : SegKind → Nat
  | .zero => r.zeroHigh.toNat
  | .one => r.oneHigh.toNat
  | .sync => r.syncHigh.toNat

/-- The low ratio of a kind (R94, R208 to R210, R214). -/
def lowRatio (r : Protocol) : SegKind → Nat
  | .zero => r.zeroLow.toNat
  | .one => r.oneLow.toNat
  | .sync => r.syncLow.toNat

/-- The current bit of state `BITS`, `tx_bits[tx_bit_length - 1 - tx_bit_idx]`; none when there is no such bit (R208). -/
def currentBit (t : Transmitter) : Option Bool :=
  if t.bitIdx.toNat < t.bitLength.toNat then some (t.bits.getLsbD (t.bitLength.toNat - 1 - t.bitIdx.toNat)) else none

/-- `kind()`: the kind of the segment the transmitter is at (R213); none when there is none. -/
def segKind (t : Transmitter) : Option SegKind :=
  match t.state with
  | .leadSync => some .sync
  | .trailSync => some .sync
  | .bits => (currentBit t).map fun b => if b then .one else .zero
  | .idle => none
  | .quiet => none

/-! ## The register file (R240) -/

/-- `REG[idx]`, zero-extended; an unmapped index reads 0 (R240, R243, R244). -/
def readReg (s : State) (idx : BitVec 8) : PortValue :=
  match idx.toNat with
  | 0x00 => ctrlBits s
  | 0x01 => statusBits s
  | 0x02 => zext64 s.cfg.tolerancePercent
  | 0x03 => zext64 s.cfg.txRepeat
  | 0x04 => zext64 s.cfg.txDefProto
  | 0x05 => zext64 s.cfg.txDefPulse
  | 0x08 => s.msg.code
  | 0x09 => s.msg.timestamp
  | 0x0A => zext64 s.msg.bitLength
  | 0x0B => s.msg.pulseUnitUs
  | 0x0C => zext64 s.msg.protocolId
  | 0x10 => zext64 s.tx.protocolId
  | 0x11 => zext64 s.tx.pulseUnitUs
  | 0x12 => zext64 s.tx.bitLength
  | _ => 0

/-- The configuration after a write of `REG[idx]`: the low bits are kept (R242); a read-only or unmapped index changes
nothing (R241, R244, R245). -/
def writeReg (c : HostConfig) (idx : BitVec 8) (v : PortValue) : HostConfig :=
  match idx.toNat with
  | 0x00 => { c with rxEn := v.getLsbD 0, txEn := v.getLsbD 1 }
  | 0x02 => { c with tolerancePercent := trunc Config.percentW v }
  | 0x03 => { c with txRepeat := trunc Config.passW v }
  | 0x04 => { c with txDefProto := trunc Config.protoIdW v }
  | 0x05 => { c with txDefPulse := trunc Config.pulseW v }
  | _ => c

end Sys2Proof.Machine
end

