-- ==== Sys2Proof/Machine/Catalog.lean ====
section
/-! DEFINITION. CATRD (40_catalog.md) and the packing of a catalog record, format C (R100). -/

namespace Sys2Proof.Machine

/-- A record as an 80-bit word, in the source's field order (R100). -/
def packProtocol (r : Protocol) : RecordWord :=
  baseUnitBits r.pulseUnitUs ++ ratioBits r.syncHigh ++ ratioBits r.syncLow ++ ratioBits r.zeroHigh
    ++ ratioBits r.zeroLow ++ ratioBits r.oneHigh ++ ratioBits r.oneLow

/-- A legal ratio from its bits; none for 0, which is illegal (R100). -/
def ratioOf (b : RatioBits) : Option Ratio :=
  if h : b.toNat - 1 < Config.maxRatio - 1 + 1 then if b = 0 then none else some ⟨⟨b.toNat - 1, h⟩⟩ else none

/-- A legal base unit from its bits; none for 0 (R100). -/
def baseUnitOf (b : PulseUnit) : Option BaseUnit :=
  if h : b.toNat - 1 < Config.maxBaseUnit - 1 + 1 then if b = 0 then none else some ⟨⟨b.toNat - 1, h⟩⟩ else none

/-- The record that an 80-bit word holds (R100); none when a field has the illegal value 0. -/
def unpackProtocol (w : RecordWord) : Option Protocol := do
  let u ← baseUnitOf (w.extractLsb' 48 32)
  let sh ← ratioOf (w.extractLsb' 40 8)
  let sl ← ratioOf (w.extractLsb' 32 8)
  let zh ← ratioOf (w.extractLsb' 24 8)
  let zl ← ratioOf (w.extractLsb' 16 8)
  let oh ← ratioOf (w.extractLsb' 8 8)
  let ol ← ratioOf (w.extractLsb' 0 8)
  some { pulseUnitUs := u, syncHigh := sh, syncLow := sl, zeroHigh := zh, zeroLow := zl, oneHigh := oh, oneLow := ol }

/-- CATRD: the record, or `valid` = 0 for an index outside 1 .. `N_PROTOCOLS` (R123, R261). -/
def execCatrd (proto : ProtoId) (s : State) : Result :=
  .next (s.respond (.record (protocolAt s.catalog proto.toNat)))

end Sys2Proof.Machine
end

