-- ==== Sys2Proof/Machine/Decoder.lean ====
section
/-! DEFINITION. The waveform decoder: DECODE and MATCH (42_decoder.md). -/

namespace Sys2Proof.Machine

/-- MATCH(d, ratio, unit) under the tolerance `tol` in percent: strict, the window not rounded (R157). -/
def matchDuration (tol unit ratio d : Nat) : Bool := decide (100 * absdiff d (ratio * unit) < unit * tol)

/-- One data pair under the record `r`: some false for a zero, some true for a one, zero tested first (R155, R164); none
when it is neither (R161). -/
def readPair (r : Protocol) (tol unit : Nat) (hi lo : Duration) : Option Bool :=
  if matchDuration tol unit r.zeroHigh.toNat hi.toNat && matchDuration tol unit r.zeroLow.toNat lo.toNat then some false
  else if matchDuration tol unit r.oneHigh.toNat hi.toNat && matchDuration tol unit r.oneLow.toNat lo.toNat then some true
  else none

/-- The data pairs of a frame of length `cc`: (`frame[i]`, `frame[i+1]`) for i = 1, 3, 5, .. below `cc` (R159). -/
def dataPairs (f : Vector Duration Config.capacity) (cc : Nat) : List (Duration × Duration) :=
  (List.range (cc / 2)).map fun k => (frameAt f (2 * k + 1), frameAt f (2 * k + 2))

/-- The accumulator over the pairs, most significant bit first (R160); none at the first pair that is no bit (R161). -/
def readCode (r : Protocol) (tol unit : Nat) : List (Duration × Duration) → Nat → Option Nat
  | [], code => some code
  | (hi, lo) :: rest, code =>
    match readPair r tol unit hi lo with
    | some b => readCode r tol unit rest (2 * code + (if b then 1 else 0))
    | none => none

/-- The unit that record `r` derives from the sync gap: division rounding down, the divisor at least 1 (R156). -/
def derivedUnit (r : Protocol) (f : Vector Duration Config.capacity) : Nat := (frameAt f 0).toNat / r.syncLow.toNat

/-- DECODE as a function of its operands and what it reads: the message of a success, none for a failure (R155, R162,
R163, R166). -/
def decodeFrame (r : Protocol) (p : Nat) (f : Vector Duration Config.capacity) (tol cc : Nat) (now : Time) :
    Option Message :=
  let unit := derivedUnit r f
  match readCode r tol unit (dataPairs f cc) 0 with
  | none => none
  | some code =>
    if Config.minChanges < cc ∧ code ≠ 0 then
      some { code := BitVec.ofNat Config.codeW code, timestamp := now, bitLength := BitVec.ofNat Config.msgLenW (cc / 2),
             pulseUnitUs := BitVec.ofNat Config.durW unit, protocolId := BitVec.ofNat Config.protoIdW p }
    else none

/-- `DECODE(p, cc, now)` on the state; none also when there is no record `p`. -/
def decodeAttempt (s : State) (cc p : Nat) : Option Message :=
  match protocolAt s.catalog p with
  | none => none
  | some r => decodeFrame r p s.cap.frame s.cfg.tolerancePercent.toNat cc s.now

/-- DECODE by itself: on success the message is committed, on failure nothing is written; the success is returned (R155). -/
def execDecodeTry (p : ProtoId) (cc : Fin Config.capacity) (s : State) : Result :=
  match protocolAt s.catalog p.toNat with
  | none => .fault .noSuchRecord
  | some r =>
    match decodeFrame r p.toNat s.cap.frame s.cfg.tolerancePercent.toNat cc.val s.now with
    | some m => .next ((s.commitMessage m).respond (.decoded true))
    | none => .next (s.respond (.decoded false))

/-- MATCH by itself: its truth is returned, no state is written (R157). -/
def execMatchDur (d : Duration) (ratio : RatioBits) (unit : Duration) (s : State) : Result :=
  .next (s.respond (.matched (matchDuration s.cfg.tolerancePercent.toNat unit.toNat ratio.toNat d.toNat)))

end Sys2Proof.Machine
end

