-- ==== Sys2Proof/Machine/Edge.lean ====
section
/-! DEFINITION. Edge capture: EDGE (41_edge_capture.md). -/

namespace Sys2Proof.Machine

/-- The protocol ids in the order they are tried (R137). -/
def protocolIds : List Nat := (List.range Config.nProtocols).map (· + 1)

/-- The decode attempts on a frame of length `cc`: the first success is committed (R137, R163). -/
def tryProtocols (s : State) (cc : Nat) : State :=
  match protocolIds.findSome? (decodeAttempt s cc) with
  | some m => s.commitMessage m
  | none => s

/-- Is the duration a long gap? Strictly above `GAP_US` (R133). -/
def isLongGap (d : Duration) : Bool := decide (Config.gapUs < d.toNat)

/-- Does the long gap match the recorded sync gap? Strictly within `SYNC_MATCH_US` (R134). -/
def isSyncMatch (d : Duration) (c : Capture) : Bool :=
  decide (absdiff d.toNat (frameAt c.frame 0).toNat < Config.syncMatchUs)

/-- Step 2a on a match: count it, and at `REPEAT_TRIGGER` try the protocols and clear the count (R135, R137, R138). -/
def edgeMatch (s : State) : State :=
  let s := s.setCap s.cap.countMatch
  if s.cap.repeatCount.toNat = Config.repeatTrigger then
    let s := tryProtocols s s.cap.changeCount.val
    s.setCap s.cap.clearRepeat
  else s

/-- Step 2 on a long gap: step 2a when it matches, then the new frame of step 2b (R134, R136). -/
def edgeLongGap (d : Duration) (s : State) : State :=
  let s := if isSyncMatch d s.cap then edgeMatch s else s
  s.setCap s.cap.startFrame

/-- Steps 3 and 4: the overflow guard, then the store (R139, R140). -/
def edgeStore (d : Duration) (s : State) : State := s.setCap (s.cap.guardOverflow.store d)

/-- The duration the edge closes (R131). -/
def edgeDuration (s : State) : Duration := tsub s.now s.cap.lastEdgeTimestamp

/-- The whole step with `rx_en` = 1 (R132). -/
def edgeStep (s : State) : State :=
  let d := edgeDuration s
  let s := s.setCap (s.cap.stamp s.now)
  let s := if isLongGap d then edgeLongGap d s else s
  edgeStore d s

/-- EDGE: the step of R132 when `rx_en` = 1; otherwise the event is dropped (R130). -/
def execEdge (s : State) : Result := if s.cfg.rxEn then .next (edgeStep s).silent else .next s.silent

end Sys2Proof.Machine
end

