-- ==== Sys2Proof/Machine/Host.lean ====
section
/-! DEFINITION. The host's register commands NOP, REGWR, REGRD (45_config.md) and MSGTAKE (43_message_handoff.md). -/

namespace Sys2Proof.Machine

/-- NOP: no state change, no response (R249). -/
def execNop (s : State) : Result := .next s.silent

/-- REGWR: the one register named, no response (R241). -/
def execRegwr (idx : BitVec 8) (value : PortValue) (s : State) : Result :=
  .next (s.setCfg (writeReg s.cfg idx value)).silent

/-- REGRD: the register's value, no side effect (R243). -/
def execRegrd (idx : BitVec 8) (s : State) : Result := .next (s.respond (.value (readReg s idx)))

/-- MSGTAKE: the flag and the five registers of one instant; the flag is cleared, the registers stay (R182, R183). -/
def execMsgtake (s : State) : Result := .next (s.clearPending.respond (.message s.msgPending s.msg))

end Sys2Proof.Machine
end

