-- ==== Sys2Proof/Machine/Restart.lean ====
section
/-! DEFINITION. RESET (70_reset_and_hazards.md). -/

namespace Sys2Proof.Machine

/-- The block after RESET: every piece of state at its value of R54. The counter and the catalog are not reset (R301), and
the environment's turns are no state of the block; a waiting SEND is dropped, and no response is produced. -/
def resetBlock (s : State) : State :=
  { State.reset with catalog := s.catalog, now := s.now, turns := s.turns }

/-- RESET, in any state (R301). -/
def execReset (s : State) : Result := .next (resetBlock s)

end Sys2Proof.Machine
end

