-- ==== Sys2Proof/Machine/Transmit.lean ====
section
/-! DEFINITION. The transmitter (44_transmitter.md): SEND, the steps TX.RISE, TX.FALL, TX.DONE, and the segments. -/

namespace Sys2Proof.Machine

/-! ## SEND -/

/-- What R204 latches, and the first state of the transmission (R195, R206). The timing cursor is not touched. -/
def Transmitter.load (t : Transmitter) (x : Accepted) (passes : PassCount) (now : Time) : Transmitter :=
  { t with
    protocolId := x.proto, pulseUnitUs := x.unit, bitLength := BitVec.ofNat Config.bitIdxW x.onAirLen,
    bits := BitVec.ofNat Config.maxLen x.onAirBits, bitIdx := 0, passLeft := passes,
    quietStart := if passes = 0 then now else t.quietStart,
    state := if passes = 0 then .quiet else if x.proto.toNat = Config.nexaProto then .leadSync else .bits }

/-- The acceptance of a SEND with the transmitter idle: it fails in its own step or loads the transmitter; the response of
a success comes from TX.DONE (R195, R205). -/
def acceptSend (a : SendArgs) (s : State) : State :=
  match resolveSend s.cfg s.catalog a with
  | .error r => s.failSend r
  | .ok x => (s.setTx (s.tx.load x s.cfg.txRepeat s.now)).silent

/-- SEND: accepted only while `tx_state` = `IDLE`; otherwise, or behind a SEND that still waits, it waits on the command
port (R196; log entry 4). -/
def execSend (a : SendArgs) (s : State) : Result :=
  if s.tx.state = .idle ∧ s.waiting = [] then .next (acceptSend a s)
  else .next (s.setWaiting (s.waiting ++ [a])).silent

/-! ## The steps -/

/-- Microseconds since the latest transition of `tx_pin` (R44). -/
def phaseElapsed (s : State) : Nat := (tsub s.now s.tx.segmentStart).toNat

/-- The time guard of TX.RISE and TX.FALL (R213, R214). -/
def phaseOver (s : State) : Bool := decide (s.tx.pendingDelay.toNat ≤ phaseElapsed s)

/-- Microseconds of the quiet period gone by (R46). -/
def quietElapsed (s : State) : Nat := (tsub s.now s.tx.quietStart).toNat

/-- The time guard of TX.DONE (R215). -/
def quietOver (s : State) : Bool := decide (Config.quietUs ≤ quietElapsed s)

/-- The pin goes high for `high` microseconds: the pin and the cursor (R213). -/
def Transmitter.rise (t : Transmitter) (high : Nat) (now : Time) : Transmitter :=
  { t with pin := true, segmentStart := now, pendingDelay := BitVec.ofNat Config.delayW high }

/-- The pin goes low for at least `low` microseconds: the pin and the cursor (R214). -/
def Transmitter.drop (t : Transmitter) (low : Nat) (now : Time) : Transmitter :=
  { t with pin := false, segmentStart := now, pendingDelay := BitVec.ofNat Config.delayW low }

/-- The sequencer after a segment (the case analysis of R214, R207). -/
def Transmitter.advance (t : Transmitter) (now : Time) : Transmitter :=
  match t.state with
  | .leadSync => { t with state := .bits, bitIdx := 0 }
  | .bits =>
    if t.bitIdx + 1 = t.bitLength then { t with bitIdx := t.bitIdx + 1, state := .trailSync }
    else { t with bitIdx := t.bitIdx + 1 }
  | .trailSync =>
    if t.passLeft - 1 = 0 then { t with passLeft := t.passLeft - 1, state := .quiet, quietStart := now }
    else
      { t with
        passLeft := t.passLeft - 1, bitIdx := 0,
        state := if t.protocolId.toNat = Config.nexaProto then .leadSync else .bits }
  | .idle => t
  | .quiet => t

/-- The segment the transmitter is at, with the record of its protocol (R213); a stop where there is none. -/
def currentSegment (s : State) : Except Fault (SegKind × Protocol) :=
  match segKind s.tx with
  | none => .error .noCurrentBit
  | some k =>
    match protocolAt s.catalog s.tx.protocolId.toNat with
    | none => .error .noSuchRecord
    | some r => .ok (k, r)

/-- TX.RISE in the state `st`, when it is enabled there (R213). -/
def txRise (st : TxState) (s : State) : Result :=
  if s.tx.state = st ∧ s.tx.pin = false ∧ phaseOver s = true then
    match currentSegment s with
    | .error f => .fault f
    | .ok (k, r) => .next (s.setTx (s.tx.rise (highRatio r k * s.tx.pulseUnitUs.toNat) s.now)).silent
  else .refused .notEnabled

/-- TX.FALL in the state `st`, when it is enabled there (R214). -/
def txFall (st : TxState) (s : State) : Result :=
  if s.tx.state = st ∧ s.tx.pin = true ∧ phaseOver s = true then
    match currentSegment s with
    | .error f => .fault f
    | .ok (k, r) =>
      .next (s.setTx ((s.tx.drop (lowRatio r k * s.tx.pulseUnitUs.toNat) s.now).advance s.now)).silent
  else .refused .notEnabled

/-- TX.RISE, pattern 0010 (R213). -/
def execTxRiseLeadSync (s : State) : Result := txRise .leadSync s
/-- TX.FALL, pattern 0011 (R214). -/
def execTxFallLeadSync (s : State) : Result := txFall .leadSync s
/-- TX.RISE, pattern 0100 (R213). -/
def execTxRiseBits (s : State) : Result := txRise .bits s
/-- TX.FALL, pattern 0101 (R214). -/
def execTxFallBits (s : State) : Result := txFall .bits s
/-- TX.RISE, pattern 0110 (R213). -/
def execTxRiseTrailSync (s : State) : Result := txRise .trailSync s
/-- TX.FALL, pattern 0111 (R214). -/
def execTxFallTrailSync (s : State) : Result := txFall .trailSync s

/-- TX.DONE, pattern 1000: the response of the SEND that started the transmission (R215). -/
def execTxDone (s : State) : Result :=
  if s.tx.state = .quiet ∧ s.tx.pin = false ∧ quietOver s = true then
    .next ((s.setTx { s.tx with state := .idle, result := .ok }).respond (.send .ok))
  else .refused .notEnabled

/-! ## The segments -/

/-- Microseconds until the phase now running is over; 0 when it is (R216). -/
def phaseWait (s : State) : Nat := s.tx.pendingDelay.toNat - phaseElapsed s

/-- `s` with the counter `n` microseconds later. -/
def State.later (s : State) (n : Nat) : State := s.setNow (s.now + BitVec.ofNat Config.timeW n)

/-- A whole segment of kind `k` in the state `st`: TX.RISE at the first counter value its guard holds, TX.FALL at the first
counter value its guard holds (R85, R208 to R210, R216; log entry 8). -/
def segment (k : SegKind) (st : TxState) (s : State) : Result :=
  if segKind s.tx = some k then
    andThen (txRise st (s.later (phaseWait s))) fun t => txFall st (t.later (phaseWait t))
  else .refused .notEnabled

/-- SEG.L0: selected in `BITS` when the current bit is 0 (R208). -/
def execSegL0 (s : State) : Result := segment .zero .bits s
/-- SEG.L1: selected in `BITS` when the current bit is 1 (R209). -/
def execSegL1 (s : State) : Result := segment .one .bits s
/-- SEG.SYNC: selected in `LEAD_SYNC` and `TRAIL_SYNC` (R210). -/
def execSegSync (s : State) : Result := segment .sync s.tx.state s

end Sys2Proof.Machine
end

