-- ==== Sys2Proof/Machine/Dispatch.lean ====
section
/-! DEFINITION. One arm per operation. -/

namespace Sys2Proof.Machine

def exec (i : Instr) (s : State) : Host.Outcome State Fault Refusal :=
  match i with
  | .nop => Sys2Proof.Machine.execNop s
  | .send a => Sys2Proof.Machine.execSend a s
  | .regwr idx value => Sys2Proof.Machine.execRegwr idx value s
  | .regrd idx => Sys2Proof.Machine.execRegrd idx s
  | .msgtake => Sys2Proof.Machine.execMsgtake s
  | .catrd proto => Sys2Proof.Machine.execCatrd proto s
  | .edge => Sys2Proof.Machine.execEdge s
  | .txRiseLeadSync => Sys2Proof.Machine.execTxRiseLeadSync s
  | .txFallLeadSync => Sys2Proof.Machine.execTxFallLeadSync s
  | .txRiseBits => Sys2Proof.Machine.execTxRiseBits s
  | .txFallBits => Sys2Proof.Machine.execTxFallBits s
  | .txRiseTrailSync => Sys2Proof.Machine.execTxRiseTrailSync s
  | .txFallTrailSync => Sys2Proof.Machine.execTxFallTrailSync s
  | .txDone => Sys2Proof.Machine.execTxDone s
  | .decodeTry p cc => Sys2Proof.Machine.execDecodeTry p cc s
  | .matchDur d ratio unit => Sys2Proof.Machine.execMatchDur d ratio unit s
  | .segL0 => Sys2Proof.Machine.execSegL0 s
  | .segL1 => Sys2Proof.Machine.execSegL1 s
  | .segSync => Sys2Proof.Machine.execSegSync s
  | .reset => Sys2Proof.Machine.execReset s

end Sys2Proof.Machine
end

