-- ==== Sys2Proof/Machine/Schedule.lean ====
section
/-! DEFINITION. Which step comes next: the environment's turns in their order, and each transmitter step at the first counter
value at which its guard holds (R73, R216, R271; log entries 1, 3, 13). -/

namespace Sys2Proof.Machine

/-- Microseconds until the transmitter's next step is enabled; none when no step is selected (R102, R216). -/
def txWait (s : State) : Option Nat :=
  match s.tx.state with
  | .leadSync => some (phaseWait s)
  | .bits => some (phaseWait s)
  | .trailSync => some (phaseWait s)
  | .quiet => if s.tx.pin then none else some (Config.quietUs - quietElapsed s)
  | .idle => none

/-- The transmitter's step, `w` microseconds from now: the operation its pattern selects (R102). -/
def takeTxStep (s : State) (w : Nat) : Result :=
  match decode (.txPattern (txPattern s.tx)) with
  | .ok i => exec i (s.later w)
  | .error _ => .next s.silent

/-- The waiting SEND is taken, if there is one and the transmitter is idle (R196). -/
def takeWaiting (s : State) : State :=
  match s.waiting with
  | [] => s.silent
  | a :: rest => if s.tx.state = .idle then acceptSend a (s.setWaiting rest) else s.silent

/-- Does a transmitter step that is due in `w` microseconds come before the turn `t`? Earlier ones do (R216); at the same
counter value the turn says (R271). -/
def txGoesFirst (s : State) (t : Turn) (w : Nat) : Bool :=
  let d := (tsub t.time s.now).toNat
  decide (w < d) || (decide (w = d) && t.txFirst)

/-- The environment's turn on the state at that instant. A strobe at 0 starts nothing (R86, R109); a reserved word is
refused (R93). -/
def takeStimulus (x : Stimulus) (s : State) : Result :=
  match x with
  | .accept => .next (takeWaiting s)
  | .input y =>
    match decode (.input y) with
    | .ok i => exec i s
    | .error _ =>
      match y with
      | .command w => .refused (.reservedCommand w)
      | .rxEdge _ => .next s.silent
      | .resetIn _ => .next s.silent

/-- The turn is taken: the counter stands at its time, and it is gone from the list. -/
def takeTurn (t : Turn) (rest : List Turn) (s : State) : Result :=
  takeStimulus t.what ((s.setTurns rest).setNow t.time)

/-- The next step of the block. With no turn left the transmitter goes on by itself and a waiting SEND is taken as soon as
the transmitter is idle (log entry 13); with nothing to do the block stays as it is (log entry 12). -/
def nextStep (s : State) : Result :=
  match s.turns with
  | [] =>
    match txWait s with
    | some w => takeTxStep s w
    | none => .next (takeWaiting s)
  | t :: rest =>
    match txWait s with
    | some w => if txGoesFirst s t w then takeTxStep s w else takeTurn t rest s
    | none => takeTurn t rest s

/-! ## Placing an operation where the step takes it next -/

/-- The transmitter at a pattern of format T, with a record and a current bit for its step to read (R102, R224). -/
def Transmitter.place (t : Transmitter) (cat : Vector Protocol Config.nProtocols) (st : TxState) (pin : Bool) :
    Transmitter :=
  { t with
    state := st, pin := pin,
    protocolId :=
      if st = .leadSync then BitVec.ofNat Config.protoIdW Config.nexaProto
      else if (protocolAt cat t.protocolId.toNat).isSome then t.protocolId else 1,
    bitIdx := if t.bitIdx.toNat < t.bitLength.toNat then t.bitIdx else 0,
    bitLength := if t.bitIdx.toNat < t.bitLength.toNat then t.bitLength else 1 }

/-- The state and pin of a pattern that enables a step (R102). -/
def patternOf (p : BitVec 4) : Option (TxState × Bool) :=
  match p.toNat with
  | 0b0010 => some (.leadSync, false)
  | 0b0011 => some (.leadSync, true)
  | 0b0100 => some (.bits, false)
  | 0b0101 => some (.bits, true)
  | 0b0110 => some (.trailSync, false)
  | 0b0111 => some (.trailSync, true)
  | 0b1000 => some (.quiet, false)
  | _ => none

/-- `s` with the code `c` where the next step takes it: an input as the first turn, at the counter's present value; a
pattern of format T in the transmitter, with no turn before its step (log entry 14). A segment kind is no step. -/
def place (s : State) (c : OpCode) : State :=
  match c with
  | .input x => s.setTurns ({ time := s.now, txFirst := false, what := .input x } :: s.turns)
  | .txPattern p =>
    match patternOf p with
    | some (st, pin) => (s.setTx (s.tx.place s.catalog st pin)).setTurns []
    | none => s
  | .segKind _ => s

end Sys2Proof.Machine
end

