-- ==== Sys2Proof/Machine/Step.lean ====
section
/-! DEFINITION. One step of the block, and the placing of a table row's word where the step takes it next. -/

namespace Sys2Proof.Machine

/-- One step of the block (R72, R73). -/
def step (s : State) : Host.Outcome State Fault Refusal := nextStep s

/-- `s` with a table row's word where the next step takes it (log entry 14). -/
def State.withFetchWord (s : State) (nbits w : Nat) : State := place s (tableCode nbits w)

end Sys2Proof.Machine
end

