-- ==== Sys2Proof/Safety.lean ====
section
/-! DEFINITION. What the rules promise of every state a run reaches (R143, R162, R224), as predicates of a state, and what
counts as a step without a stop. -/

namespace Sys2Proof.Machine

/-- Between steps `repeat_count` is 0 or 1 (R143); that `change_count` is at most `CAPACITY` is its type. -/
def Capture.Ok (c : Capture) : Prop := c.repeatCount.toNat < Config.repeatTrigger

/-- A message as a successful decode leaves it: the code is not 0 (R162), the bit length that of a frame longer than `MIN_CHANGES`
in the ring, 3 .. 33 (R29), the protocol id
that of a record (R31). -/
def Message.Decoded (m : Message) : Prop :=
  m.code ≠ 0 ∧ (Config.minChanges + 1) / 2 ≤ m.bitLength.toNat ∧ m.bitLength.toNat ≤ (Config.capacity - 1) / 2 ∧ isProtocolId m.protocolId.toNat = true

/-- A message is pending only after a decode; before any decode the registers are 0 (R27 to R32). -/
def MessageOk (m : Message) (pending : Bool) : Prop :=
  m.Decoded ∨ (m = Message.reset ∧ pending = false)

/-- The states in which segments are emitted (R224). -/
def TxState.active : TxState → Bool
  | .leadSync => true
  | .bits => true
  | .trailSync => true
  | .idle => false
  | .quiet => false

/-- The reachable combinations of the transmitter (R224), with what R37 to R43 say of its registers during a
transmission. -/
structure Transmitter.Ok (t : Transmitter) : Prop where
  /-- `tx_pin` is 1 only in `LEAD_SYNC`, `BITS`, `TRAIL_SYNC`. -/
  pin_active : t.pin = true → t.state.active = true
  /-- The protocol has a record during a transmission. -/
  proto : t.state.active = true → isProtocolId t.protocolId.toNat = true
  /-- The pulse unit is at least 1. -/
  unit : t.state.active = true → 1 ≤ t.pulseUnitUs.toNat
  /-- At least one pass is left. -/
  passes : t.state.active = true → 1 ≤ t.passLeft.toNat
  /-- The bit length is 1 .. 64. -/
  length_pos : t.state.active = true → 1 ≤ t.bitLength.toNat
  length_le : t.bitLength.toNat ≤ Config.maxLen
  /-- In `BITS` the current bit exists. -/
  bit_idx : t.state = .bits → t.bitIdx.toNat < t.bitLength.toNat
  /-- `LEAD_SYNC` occurs only with protocol 6. -/
  lead : t.state = .leadSync → t.protocolId.toNat = Config.nexaProto
  /-- The bits of `tx_bits` at and above `tx_bit_length` are 0 (R41). -/
  bits_lt : t.bits.toNat < 2 ^ t.bitLength.toNat

/-- What every reachable state satisfies. -/
structure State.Ok (s : State) : Prop where
  cap : s.cap.Ok
  msg : MessageOk s.msg s.msgPending
  tx : s.tx.Ok

/-- A step that does not stop, or stops only because the host presented a reserved word (R93). -/
def Result.fine : Result → Prop
  | .next _ => True
  | .fault _ => False
  | .refused r => ∃ w, r = .reservedCommand w

/-! ## The lengths of a transmission (R207, R218) -/

/-- The segments of one pass: its bits, and one sync segment, or two with protocol 6 (R95, R96, R207). -/
def passSegments (t : Transmitter) : Nat :=
  t.bitLength.toNat + (if t.protocolId.toNat = Config.nexaProto then 2 else 1)

/-- The length of one pass in pulse units: the high and low ratios of its bits, and of its sync segments (R218). -/
def passUnits (r : Protocol) (t : Transmitter) : Nat :=
  ((List.range t.bitLength.toNat).map fun k =>
      if t.bits.getLsbD k then r.oneHigh.toNat + r.oneLow.toNat else r.zeroHigh.toNat + r.zeroLow.toNat).sum
    + (if t.protocolId.toNat = Config.nexaProto then 2 else 1) * (r.syncHigh.toNat + r.syncLow.toNat)

/-- The first state of a pass (R204, R207). -/
def passStart (t : Transmitter) : TxState :=
  if t.protocolId.toNat = Config.nexaProto then .leadSync else .bits

end Sys2Proof.Machine
end

