-- ==== Sys2Proof/Certificates/Slice0/Obligations.lean ====
section
/-! DEFINITION. The statements for the provers. Each docstring names the rule it formalises, or the sections it rests on. -/

open Sys2Proof Sys2Proof.Machine

/-! ## Encodings -/

/-- The code of an operation decodes to that operation, with every operand (30_encoding.md sections 2, 3, 8). -/
def Obligations.EncodedOperationsDecodeToThemselves : Prop :=
  ∀ (i : Instr) (c : OpCode), encode i = some c → decode c = .ok i

/-- A code that decodes is the code of what it decodes to: no bit of an accepted word is dropped, and no operation has two
codes (30_encoding.md sections 2, 3, 8). -/
def Obligations.AcceptedCodesAreEncodings : Prop :=
  ∀ (c : OpCode) (i : Instr), decode c = .ok i → encode i = some c

/-- DECODE and MATCH, and no other operation, have no code (30_encoding.md section 10, opcode_table.json). -/
def Obligations.OnlyDecodeAndMatchHaveNoCode : Prop :=
  ∀ i : Instr, encode i = none ↔ ((∃ p cc, i = .decodeTry p cc) ∨ ∃ d r u, i = .matchDur d r u)

/-- R93: a command word is reserved exactly when its `op` is 6 to 15, its `rsv` is not 0, or a bit that its operation
requires to be 0 (R90, R91) is 1; the decoder then gives no operation, and a step that meets the word as its next turn
refuses it. -/
def Obligations.ReservedCommandWordsAreRefused : Prop :=
  ∀ w : CommandWord,
    let op := (w.extractLsb' 124 4).toNat
    let reserved :=
      6 ≤ op ∨ w.extractLsb' 115 9 ≠ 0 ∨ ((op = 0 ∨ op = 4) ∧ w.extractLsb' 0 124 ≠ 0)
        ∨ ((op = 2 ∨ op = 3) ∧ w.extractLsb' 72 52 ≠ 0) ∨ (op = 3 ∧ w.extractLsb' 0 64 ≠ 0)
        ∨ (op = 5 ∧ (w.extractLsb' 114 10 ≠ 0 ∨ w.extractLsb' 0 106 ≠ 0))
    (reserved ↔ ∀ i, decode (.input (.command w)) ≠ .ok i) ∧
    (reserved → ∀ (s : State) (t : Turn) (rest : List Turn),
      s.turns = t :: rest → t.what = .input (.command w) →
      (∀ k, txWait s = some k →
        (tsub t.time s.now).toNat < k ∨ ((tsub t.time s.now).toNat = k ∧ t.txFirst = false)) →
      step s = .refused (.reservedCommand w))

/-- Words of 45_config.md section 8 and 95_test_vectors.md section 2, one of each command, and the codes of the other formats, decode to
the operations they stand for. -/
def Obligations.WordsOfTheSpecDecode : Prop :=
  decode (.input (.command 0x00000000000000000000000000000000)) = .ok .nop ∧
  decode (.input (.command 0x10041800000001040000000000000006)) =
    .ok (.send { pv := true, proto := 6, uv := false, unit := 0, lv := true, len := 4, code := 6 }) ∧
  decode (.input (.command 0x10040A00000320000000000000000001)) =
    .ok (.send { pv := true, proto := 2, uv := true, unit := 400, lv := false, len := 0, code := 1 }) ∧
  decode (.input (.command 0x2000000000000002000000000000003C)) = .ok (.regwr 2 60) ∧
  decode (.input (.command 0x30000000000000120000000000000000)) = .ok (.regrd 0x12) ∧
  decode (.input (.command 0x40000000000000000000000000000000)) = .ok .msgtake ∧
  decode (.input (.command 0x50001800000000000000000000000000)) = .ok (.catrd 6) ∧
  decode (.input (.rxEdge 1)) = .ok .edge ∧ decode (.input (.resetIn 1)) = .ok .reset ∧
  decode (.txPattern 0b0101) = .ok .txFallBits ∧ decode (.segKind 2) = .ok .segSync

/-- An 80-bit word packs a catalog record exactly when no field is 0; the record's numbers are then the word's fields, the
base unit in bits 79:48 and the six ratios, in the source's order, in one byte each from bits 47:40 down to 7:0; and packing
and unpacking agree (30_encoding.md section 6). -/
def Obligations.CatalogRecordsPackIntoEightyBits : Prop :=
  (∀ r : Protocol, unpackProtocol (packProtocol r) = some r) ∧
  ∀ w : BitVec 80,
    ((unpackProtocol w).isSome = true ↔
      w.extractLsb' 48 32 ≠ 0 ∧ w.extractLsb' 40 8 ≠ 0 ∧ w.extractLsb' 32 8 ≠ 0 ∧ w.extractLsb' 24 8 ≠ 0 ∧
        w.extractLsb' 16 8 ≠ 0 ∧ w.extractLsb' 8 8 ≠ 0 ∧ w.extractLsb' 0 8 ≠ 0) ∧
    ∀ r : Protocol, unpackProtocol w = some r →
      packProtocol r = w ∧ r.pulseUnitUs.toNat = (w.extractLsb' 48 32).toNat ∧
        r.syncHigh.toNat = (w.extractLsb' 40 8).toNat ∧ r.syncLow.toNat = (w.extractLsb' 32 8).toNat ∧
        r.zeroHigh.toNat = (w.extractLsb' 24 8).toNat ∧ r.zeroLow.toNat = (w.extractLsb' 16 8).toNat ∧
        r.oneHigh.toNat = (w.extractLsb' 8 8).toNat ∧ r.oneLow.toNat = (w.extractLsb' 0 8).toNat

/-! ## Steps -/

/-- When an input stands first among the turns and no step of the transmitter is due before it, the step is the operation
that the input decodes to, at the turn's counter value (20_memory.md section 6; the turns are the model's form of the
environment, log entry 1). -/
def Obligations.StepRunsThePresentedOperation : Prop :=
  ∀ (s : State) (t : Turn) (rest : List Turn) (x : Input) (i : Instr),
    s.turns = t :: rest → t.what = .input x → decode (.input x) = .ok i →
    (∀ k, txWait s = some k →
      (tsub t.time s.now).toNat < k ∨ ((tsub t.time s.now).toNat = k ∧ t.txFirst = false)) →
    step s = exec i { s with turns := rest, now := t.time }

/-- A step of the transmitter that is due before the next turn is the operation its pattern selects, and it is taken at the
first counter value at which its guard holds, at once if that moment has passed (44_transmitter.md section 3; the turns are
log entry 1). -/
def Obligations.TransmitterStepsComeAtTheFirstEnabledInstant : Prop :=
  ∀ (s : State) (k : Nat), txWait s = some k →
    (s.turns = [] ∨ ∃ t rest, s.turns = t :: rest ∧
      (k < (tsub t.time s.now).toNat ∨ (k = (tsub t.time s.now).toNat ∧ t.txFirst = true))) →
    let guard := fun n : Nat =>
      if s.tx.state = .quiet then 500000 ≤ (tsub (s.now + BitVec.ofNat 64 n) s.tx.quietStart).toNat
      else s.tx.pendingDelay.toNat ≤ (tsub (s.now + BitVec.ofNat 64 n) s.tx.segmentStart).toNat
    guard k ∧ (∀ n, n < k → ¬ guard n) ∧
    ∃ i, decode (.txPattern (txPattern s.tx)) = .ok i ∧ step s = exec i { s with now := s.now + BitVec.ofNat 64 k }

/-- A table row's 128-bit word placed by `withFetchWord` is what the next step runs, in every state (log entry 14). -/
def Obligations.PlacedWordIsTheNextStep : Prop :=
  ∀ (s : State) (w : Nat) (i : Instr), decodeTableWord 128 w = some i → step (s.withFetchWord 128 w) = exec i s

/-- The SEND that waits on the command port is taken only with the transmitter idle, as if it were presented then, and the
others behind it go on waiting: at a turn that takes it, and, with no turn left, in the first step in which the transmitter
is idle; a step of a busy transmitter takes none (44_transmitter.md section 1; the list of waiting commands is log entry 4,
the moment at which one is taken log entry 13). -/
def Obligations.WaitingSendIsTakenOnlyWhenIdle : Prop :=
  (∀ (s : State) (t : Turn) (rest : List Turn) (a : SendArgs) (as : List SendArgs),
    s.turns = t :: rest → t.what = .accept → s.waiting = a :: as →
    (∀ k, txWait s = some k →
      (tsub t.time s.now).toNat < k ∨ ((tsub t.time s.now).toNat = k ∧ t.txFirst = false)) →
    (s.tx.state = .idle → ∃ u, exec (.send a) { s with turns := rest, now := t.time, waiting := [] } = .next u ∧
      step s = .next { u with waiting := as }) ∧
    (s.tx.state ≠ .idle → step s = .next { s with turns := rest, now := t.time, response := none })) ∧
  ∀ (s : State) (a : SendArgs) (as : List SendArgs), s.turns = [] → s.waiting = a :: as →
    (s.tx.state = .idle → ∃ u, exec (.send a) { s with waiting := [] } = .next u ∧
      step s = .next { u with waiting := as }) ∧
    (s.tx.state ≠ .idle → ∀ t : State, step s = .next t → t.waiting = s.waiting)

/-! ## Host registers -/

/-- R249: the all-zero word is NOP; no state change, no response (the response port is empty). -/
def Obligations.NopChangesNothing : Prop :=
  decode (.input (.command 0)) = .ok .nop ∧ ∀ s : State, exec .nop s = .next { s with response := none }

/-- R242, R245: REGWR keeps the low bits of the value that the register named has, and changes nothing else; a read-only
or unmapped index changes nothing; there is no response. -/
def Obligations.RegwrKeepsTheLowBitsOfItsRegister : Prop :=
  ∀ (idx : BitVec 8) (v : BitVec 64) (s : State), ∃ t : State,
    exec (.regwr idx v) s = .next t ∧ t = { s with cfg := t.cfg, response := none } ∧
    t.cfg.rxEn = (if idx = 0x00 then v.getLsbD 0 else s.cfg.rxEn) ∧
    t.cfg.txEn = (if idx = 0x00 then v.getLsbD 1 else s.cfg.txEn) ∧
    t.cfg.tolerancePercent.toNat = (if idx = 0x02 then v.toNat % 2 ^ 8 else s.cfg.tolerancePercent.toNat) ∧
    t.cfg.txRepeat.toNat = (if idx = 0x03 then v.toNat % 2 ^ 8 else s.cfg.txRepeat.toNat) ∧
    t.cfg.txDefProto.toNat = (if idx = 0x04 then v.toNat % 2 ^ 8 else s.cfg.txDefProto.toNat) ∧
    t.cfg.txDefPulse.toNat = (if idx = 0x05 then v.toNat % 2 ^ 32 else s.cfg.txDefPulse.toNat)

/-- REGRD answers the register of the register map, zero-extended, 0 for an unmapped index, and has no side effect
(45_config.md sections 1, 3, 4). -/
def Obligations.RegrdAnswersTheRegister : Prop :=
  ∀ (idx : BitVec 8) (s : State), ∃ v : BitVec 64,
    exec (.regrd idx) s = .next { s with response := some (.value v) } ∧
    (idx = 0x00 → v.toNat = s.cfg.rxEn.toNat + 2 * s.cfg.txEn.toNat) ∧
    (idx = 0x01 → v.toNat = s.msgPending.toNat + (if s.tx.state = .idle then 0 else 2)
      + 4 * (match s.tx.result with
        | .none => 0 | .ok => 1 | .failDisabled => 2 | .failUnknownProtocol => 3 | .failArgRange => 4)) ∧
    (idx = 0x02 → v.toNat = s.cfg.tolerancePercent.toNat) ∧
    (idx = 0x03 → v.toNat = s.cfg.txRepeat.toNat) ∧
    (idx = 0x04 → v.toNat = s.cfg.txDefProto.toNat) ∧
    (idx = 0x05 → v.toNat = s.cfg.txDefPulse.toNat) ∧
    (idx = 0x08 → v = s.msg.code) ∧
    (idx = 0x09 → v = s.msg.timestamp) ∧
    (idx = 0x0A → v.toNat = s.msg.bitLength.toNat) ∧
    (idx = 0x0B → v = s.msg.pulseUnitUs) ∧
    (idx = 0x0C → v.toNat = s.msg.protocolId.toNat) ∧
    (idx = 0x10 → v.toNat = s.tx.protocolId.toNat) ∧
    (idx = 0x11 → v.toNat = s.tx.pulseUnitUs.toNat) ∧
    (idx = 0x12 → v.toNat = s.tx.bitLength.toNat) ∧
    ((idx = 0x06 ∨ idx = 0x07 ∨ (0x0D ≤ idx.toNat ∧ idx.toNat ≤ 0x0F) ∨ 0x13 ≤ idx.toNat) → v = 0)

/-- A REGRD right after a REGWR of the same index answers the value cut to the register's width, for every register the
host can write, and the value as it was for every other index (45_config.md sections 2, 3). -/
def Obligations.WrittenRegisterReadsBack : Prop :=
  ∀ (idx : BitVec 8) (v : BitVec 64) (s : State), ∃ t u : State,
    exec (.regwr idx v) s = .next t ∧ exec (.regrd idx) t = .next u ∧
    (idx = 0x00 → u.response = some (.value (BitVec.ofNat 64 (v.toNat % 2 ^ 2)))) ∧
    ((idx = 0x02 ∨ idx = 0x03 ∨ idx = 0x04) → u.response = some (.value (BitVec.ofNat 64 (v.toNat % 2 ^ 8)))) ∧
    (idx = 0x05 → u.response = some (.value (BitVec.ofNat 64 (v.toNat % 2 ^ 32)))) ∧
    ((idx = 0x01 ∨ 0x06 ≤ idx.toNat) → ∃ u' : State, exec (.regrd idx) s = .next u' ∧ u'.response = u.response)

/-! ## The catalog -/

/-- CATRD answers the record of an id 1 .. 6 and `valid` = 0 for every other index, and changes no state (40_catalog.md
section 2). -/
def Obligations.CatrdAnswersTheRecord : Prop :=
  ∀ (p : ProtoId) (s : State), ∃ x : Option Protocol,
    exec (.catrd p) s = .next { s with response := some (.record x) } ∧
    ((1 ≤ p.toNat ∧ p.toNat ≤ 6) → x = getElem? s.catalog (p.toNat - 1) ∧ x.isSome = true) ∧
    ((p.toNat = 0 ∨ 7 ≤ p.toNat) → x = none)

/-- R67: an index outside 1 .. 6 is an error, never a read of some record: CATRD answers `valid` = 0 (InvalidProtocol) and
an enabled SEND whose effective protocol it is answers `FAIL_UNKNOWN_PROTOCOL`. -/
def Obligations.BadCatalogIndexIsNeverARecord : Prop :=
  ∀ (p : ProtoId) (s : State), (p.toNat = 0 ∨ 7 ≤ p.toNat) →
    exec (.catrd p) s = .next { s with response := some (.record none) } ∧
    ∀ a : SendArgs, s.tx.state = .idle → s.waiting = [] → s.cfg.txEn = true →
      (if a.pv then a.proto else s.cfg.txDefProto) = p →
      exec (.send a) s = .next { s with
        tx := { s.tx with result := .failUnknownProtocol }, response := some (.send .failUnknownProtocol) }

/-- The catalog is written by no step, RESET included (40_catalog.md section 1, 10_state.md section 6). -/
def Obligations.CatalogIsNeverWritten : Prop :=
  ∀ s t : State, step s = .next t → t.catalog = s.catalog

/-! ## The decoder -/

/-- R157: MATCH is the strict test against the exact window, `100 * |d - ratio * unit| < unit * tolerance_percent` on
integers, and writes no state. -/
def Obligations.MatchIsTheStrictWindow : Prop :=
  ∀ (d : Duration) (ratio : BitVec 8) (unit : BitVec 64) (s : State), ∃ b : Bool,
    exec (.matchDur d ratio unit) s = .next { s with response := some (.matched b) } ∧
    (b = true ↔
      100 * |(d.toNat : ℤ) - (ratio.toNat : ℤ) * (unit.toNat : ℤ)| < (unit.toNat : ℤ) * (s.cfg.tolerancePercent.toNat : ℤ))

/-- R155: DECODE derives the unit from `frame[0]`, reads the pairs (`frame[2k+1]`, `frame[2k+2]`), zero before one, builds
the code most significant bit first, and succeeds exactly when every pair is a bit, the frame is longer than 6 and the
code is not 0; a success writes the five message registers and `msg_pending`, a failure nothing. -/
def Obligations.DecodeReadsTheFrame : Prop :=
  ∀ (p : ProtoId) (cc : Fin Config.capacity) (s : State) (r : Protocol),
    1 ≤ p.toNat → p.toNat ≤ 6 → getElem? s.catalog (p.toNat - 1) = some r →
    let unit := (frameAt s.cap.frame 0).toNat / r.syncLow.toNat
    let fits := fun (i : Nat) (ratio : Ratio) =>
      decide (100 * absdiff (frameAt s.cap.frame i).toNat (ratio.toNat * unit) < unit * s.cfg.tolerancePercent.toNat)
    let zero := fun k : Nat => fits (2 * k + 1) r.zeroHigh && fits (2 * k + 2) r.zeroLow
    let one := fun k : Nat => fits (2 * k + 1) r.oneHigh && fits (2 * k + 2) r.oneLow
    let code := (List.range (cc.val / 2)).foldl (fun c k => 2 * c + (if zero k then 0 else 1)) 0
    if (∀ k, k < cc.val / 2 → zero k = true ∨ one k = true) ∧ 6 < cc.val ∧ code ≠ 0 then
      exec (.decodeTry p cc) s = .next { s with
        msg := { code := BitVec.ofNat 64 code, timestamp := s.now, bitLength := BitVec.ofNat 8 (cc.val / 2),
                 pulseUnitUs := BitVec.ofNat 64 unit, protocolId := p },
        msgPending := true, response := some (.decoded true) }
    else exec (.decodeTry p cc) s = .next { s with response := some (.decoded false) }

/-- The numbers of a message lose nothing: a code built by DECODE is below 2^33, its unit below 2^64 and its length at most
33 (20_memory.md section 7, 42_decoder.md section 2): the message's registers hold the exact values. -/
def Obligations.DecodedNumbersFitTheirRegisters : Prop :=
  ∀ (r : Protocol) (p : Nat) (f : Vector Duration Config.capacity) (tol : Nat) (cc : Fin Config.capacity) (now : Time)
    (m : Message), p < 256 → decodeFrame r p f tol cc.val now = some m →
    m.code.toNat < 2 ^ 33 ∧ readCode r tol (derivedUnit r f) (dataPairs f cc.val) 0 = some m.code.toNat ∧
    m.pulseUnitUs.toNat = (frameAt f 0).toNat / r.syncLow.toNat ∧ m.bitLength.toNat = cc.val / 2 ∧
    m.protocolId.toNat = p

/-- With `RX_TOL` = 0 no edge ever makes a message (42_decoder.md section 2, 70_reset_and_hazards.md section 2). -/
def Obligations.ZeroToleranceMakesNoMessage : Prop :=
  ∀ s : State, s.cfg.tolerancePercent = 0 →
    ∃ t : State, exec .edge s = .next t ∧ t.msg = s.msg ∧ t.msgPending = s.msgPending

/-! ## Edge capture -/

/-- With `rx_en` = 0 an edge is dropped: no state changes, `last_edge_timestamp` included, and there is no response
(41_edge_capture.md section 1). -/
def Obligations.DisabledReceiverDropsEdges : Prop :=
  ∀ s : State, s.cfg.rxEn = false → exec .edge s = .next { s with response := none }

/-- An edge that closes no long gap, in a frame that is not full, stores the elapsed time modulo 2^64 at `change_count` and
counts it; every other entry of the ring and everything else stays (41_edge_capture.md section 2). -/
def Obligations.DataEdgeIsStored : Prop :=
  ∀ (s : State) (d : Duration), s.cfg.rxEn = true →
    d.toNat = (s.now.toNat + 2 ^ 64 - s.cap.lastEdgeTimestamp.toNat) % 2 ^ 64 →
    d.toNat ≤ 5000 → s.cap.changeCount.val < 67 →
    ∃ t : State, exec .edge s = .next t ∧ t = { s with cap := t.cap, response := none } ∧
      t.cap.lastEdgeTimestamp = s.now ∧ t.cap.repeatCount = s.cap.repeatCount ∧
      t.cap.changeCount.val = s.cap.changeCount.val + 1 ∧
      frameAt t.cap.frame s.cap.changeCount.val = d ∧
      ∀ j, j ≠ s.cap.changeCount.val → frameAt t.cap.frame j = frameAt s.cap.frame j

/-- An edge that closes no long gap when 67 entries are stored clears both counters and is stored at `frame[0]`; no message
is touched (41_edge_capture.md section 2). -/
def Obligations.OverflowingEdgeRestartsTheFrame : Prop :=
  ∀ (s : State) (d : Duration), s.cfg.rxEn = true → d = tsub s.now s.cap.lastEdgeTimestamp →
    d.toNat ≤ 5000 → s.cap.changeCount.val = 67 →
    ∃ t : State, exec .edge s = .next t ∧ t = { s with cap := t.cap, response := none } ∧
      t.cap.lastEdgeTimestamp = s.now ∧ t.cap.repeatCount = 0 ∧ t.cap.changeCount.val = 1 ∧
      frameAt t.cap.frame 0 = d ∧ ∀ j, j ≠ 0 → frameAt t.cap.frame j = frameAt s.cap.frame j

/-- A long gap that does not match starts a new frame with itself at `frame[0]` and changes nothing else: it does not touch
`repeat_count` (41_edge_capture.md section 2). -/
def Obligations.UnmatchedLongGapKeepsTheRepeatCount : Prop :=
  ∀ (s : State) (d : Duration), s.cfg.rxEn = true → d = tsub s.now s.cap.lastEdgeTimestamp →
    5000 < d.toNat → 200 ≤ absdiff d.toNat (frameAt s.cap.frame 0).toNat →
    ∃ t : State, exec .edge s = .next t ∧ t = { s with cap := t.cap, response := none } ∧
      t.cap.lastEdgeTimestamp = s.now ∧ t.cap.repeatCount = s.cap.repeatCount ∧ t.cap.changeCount.val = 1 ∧
      frameAt t.cap.frame 0 = d ∧ ∀ j, j ≠ 0 → frameAt t.cap.frame j = frameAt s.cap.frame j

/-- A long gap within 200 microseconds of `frame[0]`, the first since `repeat_count` was cleared, is counted, and no decode
is attempted; the new frame starts with the gap (41_edge_capture.md section 2). -/
def Obligations.FirstMatchIsOnlyCounted : Prop :=
  ∀ (s : State) (d : Duration), s.cfg.rxEn = true → d = tsub s.now s.cap.lastEdgeTimestamp →
    5000 < d.toNat → absdiff d.toNat (frameAt s.cap.frame 0).toNat < 200 → s.cap.repeatCount = 0 →
    ∃ t : State, exec .edge s = .next t ∧ t = { s with cap := t.cap, response := none } ∧
      t.cap.lastEdgeTimestamp = s.now ∧ t.cap.repeatCount = 1 ∧ t.cap.changeCount.val = 1 ∧
      frameAt t.cap.frame 0 = d ∧ ∀ j, j ≠ 0 → frameAt t.cap.frame j = frameAt s.cap.frame j

/-- On the second match the protocols are tried in ascending order on the frame that ends, one entry shorter, and the first
success is the message; with no success the message registers and the flag stay. `repeat_count` is cleared either way, and
the new frame starts with the gap (41_edge_capture.md section 2; DECODE as an operation by itself is log entry 8). -/
def Obligations.SecondMatchTriesTheProtocolsInOrder : Prop :=
  ∀ (s : State) (d : Duration), s.cfg.rxEn = true → d = tsub s.now s.cap.lastEdgeTimestamp →
    5000 < d.toNat → absdiff d.toNat (frameAt s.cap.frame 0).toNat < 200 → s.cap.repeatCount = 1 →
    let try_ := fun p : Nat => exec (.decodeTry (BitVec.ofNat 8 p) (Fin.ofNat Config.capacity (s.cap.changeCount.val - 1))) s
    ∃ t : State, exec .edge s = .next t ∧
      t = { s with cap := t.cap, msg := t.msg, msgPending := t.msgPending, response := none } ∧
      t.cap.lastEdgeTimestamp = s.now ∧ t.cap.repeatCount = 0 ∧ t.cap.changeCount.val = 1 ∧
      frameAt t.cap.frame 0 = d ∧ (∀ j, j ≠ 0 → frameAt t.cap.frame j = frameAt s.cap.frame j) ∧
      ((∃ p u, 1 ≤ p ∧ p ≤ 6 ∧ try_ p = .next u ∧ u.response = some (.decoded true) ∧
          t.msg = u.msg ∧ t.msgPending = true ∧
          ∀ q, 1 ≤ q → q < p → ∃ v, try_ q = .next v ∧ v.response = some (.decoded false)) ∨
        ((∀ q, 1 ≤ q → q ≤ 6 → ∃ v, try_ q = .next v ∧ v.response = some (.decoded false)) ∧
          t.msg = s.msg ∧ t.msgPending = s.msgPending))

/-- A `frame[0]` of at most 4800 never matches: a long gap then leaves `repeat_count` and the message state alone
(41_edge_capture.md section 3). -/
def Obligations.ShortFirstEntryNeverMatches : Prop :=
  ∀ s : State, s.cfg.rxEn = true → (frameAt s.cap.frame 0).toNat ≤ 4800 →
    5000 < (tsub s.now s.cap.lastEdgeTimestamp).toNat →
    ∃ t : State, exec .edge s = .next t ∧ t.cap.repeatCount = s.cap.repeatCount ∧ t.msg = s.msg ∧
      t.msgPending = s.msgPending

/-- R131, R140: with the receiver enabled every edge, long gap or not, computes its duration modulo 2^64, sets
`last_edge_timestamp` to the counter value, stores the whole duration at `change_count` and increments it (so the duration
is the newest entry, below a `change_count` of 1 .. 67), and stores nothing else in the ring. -/
def Obligations.EveryEdgeLeavesItsDurationNewest : Prop :=
  ∀ s : State, s.cfg.rxEn = true →
    ∃ t : State, exec .edge s = .next t ∧ t.cap.lastEdgeTimestamp = s.now ∧
      1 ≤ t.cap.changeCount.val ∧ t.cap.changeCount.val ≤ 67 ∧
      (frameAt t.cap.frame (t.cap.changeCount.val - 1)).toNat =
        (s.now.toNat + 2 ^ 64 - s.cap.lastEdgeTimestamp.toNat) % 2 ^ 64 ∧
      ∀ j, j ≠ t.cap.changeCount.val - 1 → frameAt t.cap.frame j = frameAt s.cap.frame j

/-! ## The hand-off of a message -/

/-- R182: the word 0x4000... is MSGTAKE; in every state it answers the flag and the five registers of one instant, clears
the flag (and the line `msg_irq` with it) and keeps the registers; with nothing pending nothing changes. -/
def Obligations.MsgtakeTakesTheMessageOnce : Prop :=
  decode (.input (.command 0x40000000000000000000000000000000)) = .ok .msgtake ∧
  ∀ s : State,
    exec .msgtake s = .next { s with msgPending := false, response := some (.message s.msgPending s.msg) } ∧
    (∀ t, exec .msgtake s = .next t → msgIrq t = false) ∧
    (s.msgPending = false → exec .msgtake s = .next { s with response := some (.message false s.msg) })

/-- R187: MSGTAKE and EDGE in either order. The edge decodes when the receiver is enabled, it closes the second matching long
gap, and one of the six DECODEs succeeds on the frame that ends, one entry shorter. With EDGE first, MSGTAKE answers what the
edge left, its new message if it decoded, and the flag is 0 after both steps. With MSGTAKE first, it answers the old state,
and the flag is 1 after both steps exactly when the edge decodes. The flag is raised by the edge exactly when it decodes; the
message is then of a code that is not 0 and of the edge's counter value, and otherwise it is the old one; the registers end
the same in both orders. -/
def Obligations.MsgtakeAndEdgeInEitherOrder : Prop :=
  ∀ s e : State, exec .edge s = .next e →
    let d := tsub s.now s.cap.lastEdgeTimestamp
    let try_ := fun p : Nat => exec (.decodeTry (BitVec.ofNat 8 p) (Fin.ofNat Config.capacity (s.cap.changeCount.val - 1))) s
    let decodes := s.cfg.rxEn = true ∧ 5000 < d.toNat ∧ absdiff d.toNat (frameAt s.cap.frame 0).toNat < 200 ∧
      s.cap.repeatCount = 1 ∧ ∃ p u, 1 ≤ p ∧ p ≤ 6 ∧ try_ p = .next u ∧ u.response = some (.decoded true)
    ∃ em m me : State, exec .msgtake e = .next em ∧ exec .msgtake s = .next m ∧ exec .edge m = .next me ∧
      em.response = some (.message e.msgPending e.msg) ∧ m.response = some (.message s.msgPending s.msg) ∧
      em.msgPending = false ∧ (me.msgPending = true ↔ decodes) ∧ (e.msgPending = true ↔ s.msgPending = true ∨ decodes) ∧
      (decodes → e.msg.code ≠ 0 ∧ e.msg.timestamp = s.now) ∧ (¬ decodes → e.msg = s.msg) ∧
      em.msg = e.msg ∧ me.msg = e.msg ∧ em.cap = e.cap ∧ me.cap = e.cap

/-- No message has code 0 (42_decoder.md section 2): an operation that raises `msg_pending` or rewrites the message
registers, RESET aside, leaves a code that is not 0, a bit length of 3 .. 33, the id of a record, and the counter value
of its step as the timestamp. -/
def Obligations.NewMessagesAreDecodes : Prop :=
  ∀ (i : Instr) (s t : State), exec i s = .next t → i ≠ .reset →
    (t.msg ≠ s.msg ∨ (t.msgPending = true ∧ s.msgPending = false)) →
    t.msgPending = true ∧ t.msg.code ≠ 0 ∧ 3 ≤ t.msg.bitLength.toNat ∧ t.msg.bitLength.toNat ≤ 33 ∧
      1 ≤ t.msg.protocolId.toNat ∧ t.msg.protocolId.toNat ≤ 6 ∧ t.msg.timestamp = s.now

/-! ## SEND -/

/-- A SEND accepted with `tx_en` = 0 fails with `FAIL_DISABLED`, whatever its arguments: only `tx_result` and the response
change (44_transmitter.md section 1). -/
def Obligations.DisabledSendFails : Prop :=
  ∀ (s : State) (a : SendArgs), s.tx.state = .idle → s.waiting = [] → s.cfg.txEn = false →
    exec (.send a) s = .next { s with
      tx := { s.tx with result := .failDisabled }, response := some (.send .failDisabled) }

/-- R201: an enabled SEND of a known protocol fails with `FAIL_ARG_RANGE`, and changes nothing else, when the effective
unit is 0, the effective length is 0 or above 64, or above 32 for protocol 6, or the code does not fit the length. -/
def Obligations.SendRefusesArgumentsOutOfRange : Prop :=
  ∀ (s : State) (a : SendArgs) (r : Protocol), s.tx.state = .idle → s.waiting = [] → s.cfg.txEn = true →
    let p := (if a.pv then a.proto else s.cfg.txDefProto).toNat
    1 ≤ p → p ≤ 6 → getElem? s.catalog (p - 1) = some r →
    let u := if a.uv then a.unit.toNat
      else if s.cfg.txDefPulse ≠ 0 then s.cfg.txDefPulse.toNat else r.pulseUnitUs.toNat
    let l := if a.lv then a.len.toNat else if p = 6 ∨ 16777216 < a.code.toNat then 32 else 24
    (u = 0 ∨ l = 0 ∨ 64 < l ∨ (p = 6 ∧ 32 < l) ∨ 2 ^ l ≤ a.code.toNat) →
    exec (.send a) s = .next { s with
      tx := { s.tx with result := .failArgRange }, response := some (.send .failArgRange) }

/-- A SEND whose checks pass latches the effective protocol, unit and on-air length and `TX_REPEAT`, starts at bit 0 in
`LEAD_SYNC` for protocol 6 and in `BITS` otherwise, and with zero passes goes to `QUIET` from the counter value of its
acceptance; the pin, the timing cursor and `tx_result` stay, and the response comes later (44_transmitter.md section 1). -/
def Obligations.AcceptedSendLoadsTheTransmitter : Prop :=
  ∀ (s : State) (a : SendArgs) (r : Protocol), s.tx.state = .idle → s.waiting = [] → s.cfg.txEn = true →
    let p := (if a.pv then a.proto else s.cfg.txDefProto).toNat
    1 ≤ p → p ≤ 6 → getElem? s.catalog (p - 1) = some r →
    let u := if a.uv then a.unit.toNat
      else if s.cfg.txDefPulse ≠ 0 then s.cfg.txDefPulse.toNat else r.pulseUnitUs.toNat
    let l := if a.lv then a.len.toNat else if p = 6 ∨ 16777216 < a.code.toNat then 32 else 24
    u ≠ 0 → l ≠ 0 → l ≤ 64 → (p = 6 → l ≤ 32) → a.code.toNat < 2 ^ l →
    ∃ t : State, exec (.send a) s = .next t ∧ t = { s with tx := t.tx, response := none } ∧
      t.tx.protocolId.toNat = p ∧ t.tx.pulseUnitUs.toNat = u ∧
      t.tx.bitLength.toNat = (if p = 6 then 2 * l else l) ∧ t.tx.bitIdx = 0 ∧ t.tx.passLeft = s.cfg.txRepeat ∧
      t.tx.state = (if s.cfg.txRepeat = 0 then .quiet else if p = 6 then .leadSync else .bits) ∧
      t.tx.quietStart = (if s.cfg.txRepeat = 0 then s.now else s.tx.quietStart) ∧
      t.tx.segmentStart = s.tx.segmentStart ∧ t.tx.pendingDelay = s.tx.pendingDelay ∧
      t.tx.pin = s.tx.pin ∧ t.tx.result = s.tx.result

/-- For a protocol other than 6 the bit string is the low L bits of the code: `tx_bits` holds bit j of the code at j below L,
and 0 above (44_transmitter.md section 1). -/
def Obligations.SentBitsAreTheCode : Prop :=
  ∀ (s t : State) (a : SendArgs), s.tx.state = .idle → s.waiting = [] →
    exec (.send a) s = .next t → t.tx.state ≠ .idle → t.tx.protocolId.toNat ≠ 6 →
    ∀ j, t.tx.bits.getLsbD j = (decide (j < t.tx.bitLength.toNat) && a.code.getLsbD j)

/-- For protocol 6 every source bit b becomes the pair b, not b: the on-air length is twice the source length, and bit j of
the code stands at 2j+1 with its complement at 2j (44_transmitter.md section 1). -/
def Obligations.NexaBitsAreDoubled : Prop :=
  ∀ (s t : State) (a : SendArgs), s.tx.state = .idle → s.waiting = [] →
    exec (.send a) s = .next t → t.tx.state ≠ .idle → t.tx.protocolId.toNat = 6 →
    ∃ l : Nat, t.tx.bitLength.toNat = 2 * l ∧ l = (if a.lv then a.len.toNat else 32) ∧ a.code.toNat < 2 ^ l ∧
      (∀ j, j < l → t.tx.bits.getLsbD (2 * j + 1) = a.code.getLsbD j ∧
        t.tx.bits.getLsbD (2 * j) = !(a.code.getLsbD j)) ∧
      ∀ j, 2 * l ≤ j → t.tx.bits.getLsbD j = false

/-- A SEND presented while the transmitter is busy, or behind one that waits, is not taken: it waits on the command port,
and nothing else changes (44_transmitter.md section 1; the order among waiting commands is log entry 4). -/
def Obligations.BusySendWaits : Prop :=
  ∀ (s : State) (a : SendArgs), (s.tx.state ≠ .idle ∨ s.waiting ≠ []) →
    exec (.send a) s = .next { s with waiting := s.waiting ++ [a], response := none }

/-! ## The transmitter -/

/-- R213: patterns 0010, 0100 and 0110 are TX.RISE; enabled, it raises the pin, starts the cursor at the counter value, and makes the pending delay the high ratio of
the segment times the pulse unit; nothing else changes. -/
def Obligations.TxRiseStartsTheHighPhase : Prop :=
  (decode (.txPattern 0b0010) = .ok .txRiseLeadSync ∧ decode (.txPattern 0b0100) = .ok .txRiseBits ∧
    decode (.txPattern 0b0110) = .ok .txRiseTrailSync) ∧
  ∀ (s : State) (i : Instr) (r : Protocol),
    ((i = .txRiseLeadSync ∧ s.tx.state = .leadSync) ∨
      (i = .txRiseBits ∧ s.tx.state = .bits ∧ s.tx.bitIdx.toNat < s.tx.bitLength.toNat) ∨
      (i = .txRiseTrailSync ∧ s.tx.state = .trailSync)) →
    s.tx.pin = false → s.tx.pendingDelay.toNat ≤ (tsub s.now s.tx.segmentStart).toNat →
    1 ≤ s.tx.protocolId.toNat → s.tx.protocolId.toNat ≤ 6 →
    getElem? s.catalog (s.tx.protocolId.toNat - 1) = some r →
    let high :=
      if s.tx.state = .bits then
        if s.tx.bits.getLsbD (s.tx.bitLength.toNat - 1 - s.tx.bitIdx.toNat) then r.oneHigh else r.zeroHigh
      else r.syncHigh
    ∃ d : BitVec 40, d.toNat = high.toNat * s.tx.pulseUnitUs.toNat ∧
      exec i s = .next { s with
        tx := { s.tx with pin := true, segmentStart := s.now, pendingDelay := d }, response := none }

/-- R214: patterns 0011, 0101 and 0111 are TX.FALL; enabled, it lowers the pin, starts the cursor, makes the pending delay the low ratio of the segment times the pulse
unit, and moves the sequencer on; nothing else changes. -/
def Obligations.TxFallEndsTheSegment : Prop :=
  (decode (.txPattern 0b0011) = .ok .txFallLeadSync ∧ decode (.txPattern 0b0101) = .ok .txFallBits ∧
    decode (.txPattern 0b0111) = .ok .txFallTrailSync) ∧
  ∀ (s : State) (i : Instr) (r : Protocol),
    ((i = .txFallLeadSync ∧ s.tx.state = .leadSync) ∨
      (i = .txFallBits ∧ s.tx.state = .bits ∧ s.tx.bitIdx.toNat < s.tx.bitLength.toNat) ∨
      (i = .txFallTrailSync ∧ s.tx.state = .trailSync)) →
    s.tx.pin = true → s.tx.pendingDelay.toNat ≤ (tsub s.now s.tx.segmentStart).toNat →
    1 ≤ s.tx.protocolId.toNat → s.tx.protocolId.toNat ≤ 6 →
    getElem? s.catalog (s.tx.protocolId.toNat - 1) = some r →
    let low :=
      if s.tx.state = .bits then
        if s.tx.bits.getLsbD (s.tx.bitLength.toNat - 1 - s.tx.bitIdx.toNat) then r.oneLow else r.zeroLow
      else r.syncLow
    ∃ t : State, exec i s = .next t ∧ t = { s with tx := t.tx, response := none } ∧
      t.tx.pin = false ∧ t.tx.segmentStart = s.now ∧ t.tx.pendingDelay.toNat = low.toNat * s.tx.pulseUnitUs.toNat ∧
      t.tx.protocolId = s.tx.protocolId ∧ t.tx.pulseUnitUs = s.tx.pulseUnitUs ∧ t.tx.bitLength = s.tx.bitLength ∧
      t.tx.bits = s.tx.bits ∧ t.tx.result = s.tx.result ∧
      (s.tx.state = .leadSync → t.tx.state = .bits ∧ t.tx.bitIdx = 0 ∧ t.tx.passLeft = s.tx.passLeft ∧
        t.tx.quietStart = s.tx.quietStart) ∧
      (s.tx.state = .bits → t.tx.bitIdx.toNat = s.tx.bitIdx.toNat + 1 ∧ t.tx.passLeft = s.tx.passLeft ∧
        t.tx.quietStart = s.tx.quietStart ∧
        t.tx.state = (if s.tx.bitIdx.toNat + 1 = s.tx.bitLength.toNat then .trailSync else .bits)) ∧
      (s.tx.state = .trailSync → t.tx.passLeft = s.tx.passLeft - 1 ∧
        (s.tx.passLeft = 1 → t.tx.state = .quiet ∧ t.tx.quietStart = s.now ∧ t.tx.bitIdx = s.tx.bitIdx) ∧
        (s.tx.passLeft ≠ 1 → t.tx.state = (if s.tx.protocolId.toNat = 6 then .leadSync else .bits) ∧
          t.tx.quietStart = s.tx.quietStart ∧ t.tx.bitIdx = 0))

/-- R215: TX.DONE, 500000 microseconds or more after `tx_quiet_start`, returns the sequencer to `IDLE` with the result `OK`,
which answers the SEND; the cursor and everything else stay. -/
def Obligations.TxDoneAnswersTheSend : Prop :=
  decode (.txPattern 0b1000) = .ok .txDone ∧
  ∀ s : State, s.tx.state = .quiet → s.tx.pin = false → 500000 ≤ (tsub s.now s.tx.quietStart).toNat →
    exec .txDone s = .next { s with
      tx := { s.tx with state := .idle, result := .ok }, response := some (.send .ok) }

/-- A transmitter step is taken only when it is enabled: in the state and at the pin level of its pattern, and not before
its time guard holds (44_transmitter.md section 3, 30_encoding.md section 8); the model refuses it otherwise (log entry
9). -/
def Obligations.TxStepsAreRefusedUnlessEnabled : Prop :=
  ∀ (s : State) (i : Instr) (p : BitVec 4), decode (.txPattern p) = .ok i →
    (exec i s = .refused .notEnabled ↔
      (txPattern s.tx ≠ p ∨
        (if i = .txDone then (tsub s.now s.tx.quietStart).toNat < 500000
         else (tsub s.now s.tx.segmentStart).toNat < s.tx.pendingDelay.toNat)))

/-- A segment of kind zero, one or sync: the pin is high for exactly its high ratio times the pulse unit, from the first
counter value at which the pending delay has run out, then low with its low ratio times the pulse unit pending
(44_transmitter.md section 2; SEG as one operation is log entry 8). It is one TX.RISE and one TX.FALL. -/
def Obligations.SegmentsLastTheirNominalTimes : Prop :=
  ∀ (s : State) (i rise fall : Instr) (r : Protocol) (high low : Ratio),
    ((i = .segL0 ∧ rise = .txRiseBits ∧ fall = .txFallBits ∧ high = r.zeroHigh ∧ low = r.zeroLow ∧
        s.tx.state = .bits ∧ s.tx.bitIdx.toNat < s.tx.bitLength.toNat ∧
        s.tx.bits.getLsbD (s.tx.bitLength.toNat - 1 - s.tx.bitIdx.toNat) = false) ∨
      (i = .segL1 ∧ rise = .txRiseBits ∧ fall = .txFallBits ∧ high = r.oneHigh ∧ low = r.oneLow ∧
        s.tx.state = .bits ∧ s.tx.bitIdx.toNat < s.tx.bitLength.toNat ∧
        s.tx.bits.getLsbD (s.tx.bitLength.toNat - 1 - s.tx.bitIdx.toNat) = true) ∨
      (i = .segSync ∧ rise = .txRiseLeadSync ∧ fall = .txFallLeadSync ∧ high = r.syncHigh ∧ low = r.syncLow ∧
        s.tx.state = .leadSync) ∨
      (i = .segSync ∧ rise = .txRiseTrailSync ∧ fall = .txFallTrailSync ∧ high = r.syncHigh ∧ low = r.syncLow ∧
        s.tx.state = .trailSync)) →
    s.tx.pin = false → 1 ≤ s.tx.protocolId.toNat → s.tx.protocolId.toNat ≤ 6 →
    getElem? s.catalog (s.tx.protocolId.toNat - 1) = some r →
    let start := s.now + BitVec.ofNat 64 (s.tx.pendingDelay.toNat - (tsub s.now s.tx.segmentStart).toNat)
    let stop := start + BitVec.ofNat 64 (high.toNat * s.tx.pulseUnitUs.toNat)
    ∃ u t : State, exec rise { s with now := start } = .next u ∧ u.tx.pin = true ∧
      exec fall { u with now := stop } = .next t ∧ exec i s = .next t ∧
      t = { s with tx := t.tx, now := stop, response := none } ∧
      t.tx.pin = false ∧ t.tx.segmentStart = stop ∧ t.tx.pendingDelay.toNat = low.toNat * s.tx.pulseUnitUs.toNat

/-- A segment is selected by the state (44_transmitter.md section 2): a zero and a one in `BITS` by the current bit, a sync
in the two sync states. The model refuses it in every other state, and when the pin is already high (log entries 8, 9). -/
def Obligations.SegmentsAreRefusedUnlessSelected : Prop :=
  ∀ s : State,
    let bit := fun b : Bool => s.tx.state = .bits ∧ s.tx.bitIdx.toNat < s.tx.bitLength.toNat ∧
      s.tx.bits.getLsbD (s.tx.bitLength.toNat - 1 - s.tx.bitIdx.toNat) = b
    (exec .segL0 s = .refused .notEnabled ↔ (¬ bit false ∨ s.tx.pin = true)) ∧
    (exec .segL1 s = .refused .notEnabled ↔ (¬ bit true ∨ s.tx.pin = true)) ∧
    (exec .segSync s = .refused .notEnabled ↔
      (¬ (s.tx.state = .leadSync ∨ s.tx.state = .trailSync) ∨ s.tx.pin = true))

/-- An index without a record is an error, never a read of some record, in the operations that read the catalog inside
(20_memory.md section 3): DECODE, an enabled step of the transmitter and a selected segment then fault, and so does a
step in `BITS` without a current bit (the faults are log entry 10). -/
def Obligations.MissingRecordsAndBitsAreFaults : Prop :=
  (∀ (p : ProtoId) (cc : Fin Config.capacity) (s : State), (p.toNat = 0 ∨ 7 ≤ p.toNat) →
    exec (.decodeTry p cc) s = .fault .noSuchRecord) ∧
  (∀ (s : State) (i : Instr),
    ((i = .txRiseLeadSync ∧ s.tx.state = .leadSync ∧ s.tx.pin = false) ∨
      (i = .txFallLeadSync ∧ s.tx.state = .leadSync ∧ s.tx.pin = true) ∨
      (i = .txRiseBits ∧ s.tx.state = .bits ∧ s.tx.pin = false) ∨
      (i = .txFallBits ∧ s.tx.state = .bits ∧ s.tx.pin = true) ∨
      (i = .txRiseTrailSync ∧ s.tx.state = .trailSync ∧ s.tx.pin = false) ∨
      (i = .txFallTrailSync ∧ s.tx.state = .trailSync ∧ s.tx.pin = true)) →
    s.tx.pendingDelay.toNat ≤ (tsub s.now s.tx.segmentStart).toNat →
    (s.tx.state = .bits → s.tx.bitLength.toNat ≤ s.tx.bitIdx.toNat → exec i s = .fault .noCurrentBit) ∧
    ((s.tx.state = .bits → s.tx.bitIdx.toNat < s.tx.bitLength.toNat) →
      (s.tx.protocolId.toNat = 0 ∨ 7 ≤ s.tx.protocolId.toNat) → exec i s = .fault .noSuchRecord)) ∧
  ∀ (s : State) (i : Instr),
    ((i = .segSync ∧ (s.tx.state = .leadSync ∨ s.tx.state = .trailSync)) ∨
      ((i = .segL0 ∨ i = .segL1) ∧ s.tx.state = .bits ∧ s.tx.bitIdx.toNat < s.tx.bitLength.toNat ∧
        (s.tx.bits.getLsbD (s.tx.bitLength.toNat - 1 - s.tx.bitIdx.toNat) = true ↔ i = .segL1))) →
    s.tx.pin = false → (s.tx.protocolId.toNat = 0 ∨ 7 ≤ s.tx.protocolId.toNat) →
    exec i s = .fault .noSuchRecord

/-- A transmission in progress ends only with TX.DONE, or early with RESET: no command stops it, and nothing else leads from
a busy state to `IDLE` (44_transmitter.md section 5). -/
def Obligations.OnlyDoneOrResetEndsATransmission : Prop :=
  ∀ (i : Instr) (s t : State), exec i s = .next t → s.tx.state ≠ .idle → t.tx.state = .idle →
    (i = .txDone ∧ 500000 ≤ (tsub s.now s.tx.quietStart).toNat ∧ t.tx.result = .ok) ∨ i = .reset

/-- From the first state of a transmission, with no turn of the environment to come (log entry 13), every pass takes its
nominal length and the last phase is followed by the quiet period: after two steps per segment and one more the transmitter
is idle with the result `OK`, the pin low, no pass left, the counter at the exact sum of the waiting time, the passes less
the last low phase, and 500000; the receiver, the configuration and the waiting commands are untouched (44_transmitter.md
sections 2 to 4). -/
def Obligations.ATransmissionLastsItsExactLength : Prop :=
  ∀ (s : State) (r : Protocol), s.tx.Ok → s.turns = [] → s.tx.pin = false → s.tx.bitIdx = 0 →
    s.tx.state = passStart s.tx → getElem? s.catalog (s.tx.protocolId.toNat - 1) = some r →
    let u := s.tx.pulseUnitUs.toNat
    let passes := s.tx.passLeft.toNat
    let wait := s.tx.pendingDelay.toNat - (tsub s.now s.tx.segmentStart).toNat
    let emission := wait + (passes * passUnits r s.tx - r.syncLow.toNat) * u
    ∃ t : State, Host.Core.run Sys2Proof.core (2 * (passes * passSegments s.tx) + 1) s = .next t ∧
      t.tx.state = .idle ∧ t.tx.result = .ok ∧ t.response = some (.send .ok) ∧ t.tx.pin = false ∧
      t.tx.passLeft = 0 ∧ t.now = s.now + BitVec.ofNat 64 (emission + 500000) ∧
      t.tx.segmentStart = s.now + BitVec.ofNat 64 emission ∧ t.tx.quietStart = t.tx.segmentStart ∧
      t.tx.pendingDelay.toNat = r.syncLow.toNat * u ∧
      t.cap = s.cap ∧ t.msg = s.msg ∧ t.msgPending = s.msgPending ∧ t.cfg = s.cfg ∧ t.waiting = s.waiting

/-! ## RESET, ownership, invariants -/

/-- R301: RESET, in any state, puts every register at its value of R54; the counter and the catalog are not reset, a
waiting SEND is dropped, no response is produced. -/
def Obligations.ResetPutsEveryRegister : Prop :=
  decode (.input (.resetIn 1)) = .ok .reset ∧
  ∀ s : State, ∃ t : State, exec .reset s = .next t ∧
    t.cap.lastEdgeTimestamp = 0 ∧ t.cap.repeatCount = 0 ∧ t.cap.changeCount = 0 ∧
    (∀ j, j < 67 → getElem? t.cap.frame j = some 0) ∧
    t.cfg = { tolerancePercent := Config.toleranceReset, rxEn := false, txEn := false,
              txRepeat := Config.txRepeatReset, txDefProto := 1, txDefPulse := 0 } ∧
    t.msg = { code := 0, timestamp := 0, bitLength := 0, pulseUnitUs := 0, protocolId := 0 } ∧ t.msgPending = false ∧
    t.tx = { protocolId := 0, pulseUnitUs := 0, bitLength := 0, state := .idle, bits := 0, bitIdx := 0, passLeft := 0,
             segmentStart := 0, pendingDelay := 0, quietStart := 0, pin := false, result := .none } ∧
    t.waiting = [] ∧ t.response = none ∧ t.now = s.now ∧ t.catalog = s.catalog

/-- R20: RESET aside, capture state is written only by EDGE; message state only by a decode (EDGE, DECODE) and, the flag, by
MSGTAKE; transmitter state only by SEND and the transmitter's steps; configuration only by REGWR; the catalog by nobody. -/
def Obligations.StateIsWrittenByItsOwner : Prop :=
  ∀ (i : Instr) (s t : State), exec i s = .next t → i ≠ .reset →
    (t.cap ≠ s.cap → i = .edge) ∧
    (t.msg ≠ s.msg → i = .edge ∨ ∃ p cc, i = .decodeTry p cc) ∧
    (t.msgPending ≠ s.msgPending → i = .msgtake ∨ i = .edge ∨ ∃ p cc, i = .decodeTry p cc) ∧
    (t.tx ≠ s.tx → (∃ a, i = .send a) ∨ i ∈ [Instr.txRiseLeadSync, .txFallLeadSync, .txRiseBits, .txFallBits,
      .txRiseTrailSync, .txFallTrailSync, .txDone, .segL0, .segL1, .segSync]) ∧
    (t.cfg ≠ s.cfg → ∃ idx v, i = .regwr idx v) ∧ t.catalog = s.catalog

/-- The receiver and the transmitter share no state (60_exceptions.md section 8): what an edge makes of the capture and
message state does not depend on the transmitter, the waiting commands or the transmit configuration. -/
def Obligations.ReceiverIgnoresTheTransmitter : Prop :=
  ∀ s s' t : State, s'.cap = s.cap → s'.msg = s.msg → s'.msgPending = s.msgPending → s'.catalog = s.catalog →
    s'.now = s.now → s'.cfg.rxEn = s.cfg.rxEn → s'.cfg.tolerancePercent = s.cfg.tolerancePercent →
    exec .edge s = .next t →
    ∃ t' : State, exec .edge s' = .next t' ∧ t'.cap = t.cap ∧ t'.msg = t.msg ∧ t'.msgPending = t.msgPending

/-- The transmitter's steps depend on the transmitter, the catalog and the counter alone: neither the receiver nor a write
of any configuration register during a transmission changes what they do (44_transmitter.md section 5, 60_exceptions.md
section 8). -/
def Obligations.TransmitterIgnoresEverythingElse : Prop :=
  ∀ (i : Instr) (s s' t : State), i ∈ [Instr.txRiseLeadSync, .txFallLeadSync, .txRiseBits, .txFallBits,
      .txRiseTrailSync, .txFallTrailSync, .txDone, .segL0, .segL1, .segSync] →
    s'.tx = s.tx → s'.catalog = s.catalog → s'.now = s.now → exec i s = .next t →
    ∃ t' : State, exec i s' = .next t' ∧ t'.tx = t.tx ∧ t'.now = t.now ∧ t'.response = t.response

/-- The invariant of Safety.lean holds right after reset. -/
def Obligations.ResetStateIsOk : Prop := State.reset.Ok

/-- From every state that satisfies the invariant (the repeat count is 0 or 1, a message is a decode, the transmitter is in one
of its reachable combinations), with any turns to come, a step leads to a state that satisfies it (41_edge_capture.md
section 3, 42_decoder.md section 2, 44_transmitter.md section 5). -/
def Obligations.EveryStepKeepsTheInvariant : Prop :=
  ∀ s t : State, s.Ok → step s = .next t → t.Ok

/-- From a state that satisfies the invariant no step faults, and none is refused but for a reserved command word: the
internal catalog reads and the segments cannot fail (40_catalog.md section 3, 44_transmitter.md section 5). -/
def Obligations.NoStepStopsButOnAReservedWord : Prop :=
  ∀ s : State, s.Ok → Result.fine (step s)
end

