-- ==== Sys2Proof/Laws/Config.lean ====
section
/-! SUPPORT. The widths and the other parameters as numerals, for arithmetic on the ranges of the block's numbers, and the constraints between the
parameters (R7). -/

namespace Sys2Proof

@[simp] theorem Config.timeW_eq : Config.timeW = 64 := rfl
@[simp] theorem Config.codeW_eq : Config.codeW = 64 := rfl
@[simp] theorem Config.durW_eq : Config.durW = 64 := rfl
@[simp] theorem Config.ratioW_eq : Config.ratioW = 8 := rfl
@[simp] theorem Config.pulseW_eq : Config.pulseW = 32 := rfl
@[simp] theorem Config.delayW_eq : Config.delayW = 40 := rfl
@[simp] theorem Config.recordW_eq : Config.recordW = 80 := rfl
@[simp] theorem Config.maxLen_eq : Config.maxLen = 64 := rfl
@[simp] theorem Config.protoIdW_eq : Config.protoIdW = 8 := rfl
@[simp] theorem Config.percentW_eq : Config.percentW = 8 := rfl
@[simp] theorem Config.passW_eq : Config.passW = 8 := rfl
@[simp] theorem Config.repeatW_eq : Config.repeatW = 2 := rfl
@[simp] theorem Config.msgLenW_eq : Config.msgLenW = 8 := rfl
@[simp] theorem Config.bitIdxW_eq : Config.bitIdxW = 7 := rfl
@[simp] theorem Config.portW_eq : Config.portW = 64 := rfl

/-! The ranges of the numbers, with the widths as numerals. -/

theorem time_lt (t : Time) : t.toNat < 2 ^ 64 := t.isLt
theorem duration_lt (d : Duration) : d.toNat < 2 ^ 64 := d.isLt
theorem codeWord_lt (c : CodeWord) : c.toNat < 2 ^ 64 := c.isLt
theorem portValue_lt (v : PortValue) : v.toNat < 2 ^ 64 := v.isLt
theorem bitString_lt (b : BitString) : b.toNat < 2 ^ 64 := b.isLt
theorem pulseUnit_lt (u : PulseUnit) : u.toNat < 2 ^ 32 := u.isLt
theorem delayReg_lt (d : Delay) : d.toNat < 2 ^ 40 := d.isLt
theorem ratioBits_lt (b : RatioBits) : b.toNat < 2 ^ 8 := b.isLt
theorem protoId_lt (p : ProtoId) : p.toNat < 2 ^ 8 := p.isLt
theorem percent_lt (p : Percent) : p.toNat < 2 ^ 8 := p.isLt
theorem passCount_lt (n : PassCount) : n.toNat < 2 ^ 8 := n.isLt
theorem repeatCount_lt (n : RepeatCount) : n.toNat < 2 ^ 2 := n.isLt
theorem msgLength_lt (n : MsgLength) : n.toNat < 2 ^ 8 := n.isLt
theorem bitIndex_lt (n : BitIndex) : n.toNat < 2 ^ 7 := n.isLt

/-! The parameters that are no widths. -/

theorem Config.nProtocols_eq : Config.nProtocols = 6 := rfl
theorem Config.capacity_eq : Config.capacity = 67 := rfl
theorem Config.gapUs_eq : Config.gapUs = 5000 := rfl
theorem Config.syncMatchUs_eq : Config.syncMatchUs = 200 := rfl
theorem Config.repeatTrigger_eq : Config.repeatTrigger = 2 := rfl
theorem Config.minChanges_eq : Config.minChanges = 6 := rfl
theorem Config.quietUs_eq : Config.quietUs = 500000 := rfl
theorem Config.defaultLen_eq : Config.defaultLen = 24 := rfl
theorem Config.wideLen_eq : Config.wideLen = 32 := rfl
theorem Config.wideThreshold_eq : Config.wideThreshold = 16777216 := rfl
theorem Config.nexaProto_eq : Config.nexaProto = 6 := rfl
theorem Config.maxNexaLen_eq : Config.maxNexaLen = 32 := rfl
theorem Config.maxRatio_eq : Config.maxRatio = 255 := rfl
theorem Config.maxBaseUnit_eq : Config.maxBaseUnit = 4294967295 := rfl

/-- The parameters satisfy the constraints that the rules rely on (R7). -/
theorem Config.params_ok : Config.params.Ok := by unfold Params.Ok; decide

/-- The ring's longest frame fits the message's length register, the doubled string of protocol `NEXA_PROTO` fits
`tx_bits`, and a phase of the largest ratio and unit fits the delay register (R29, R45, R201). -/
theorem Config.widths_suffice :
    (Config.capacity - 1) / 2 < 2 ^ Config.msgLenW ∧ 2 * Config.maxNexaLen ≤ Config.maxLen ∧
      Config.maxLen < 2 ^ Config.bitIdxW ∧ Config.maxRatio * Config.maxBaseUnit < 2 ^ Config.delayW := by decide

/-- A ratio is 1 .. 255 (R100). -/
theorem Ratio.toNat_pos (r : Ratio) : 1 ≤ r.toNat := Nat.le_add_left ..
theorem Ratio.toNat_le (r : Ratio) : r.toNat ≤ 255 := r.pred.isLt

/-- A base unit is 1 .. 2^32 - 1 (R100). -/
theorem BaseUnit.toNat_pos (u : BaseUnit) : 1 ≤ u.toNat := Nat.le_add_left ..
theorem BaseUnit.toNat_le (u : BaseUnit) : u.toNat ≤ 4294967295 := u.pred.isLt

end Sys2Proof
end

