-- ==== Sys2Proof/Laws/State.lean ====
section
/-! SUPPORT. One lemma per field per named update of the state, so that no proof unfolds an update. -/

namespace Sys2Proof.Machine

/-! ## The updates of the state -/

@[simp] theorem State.silent_cap (s : State) : s.silent.cap = s.cap := rfl
@[simp] theorem State.silent_msg (s : State) : s.silent.msg = s.msg := rfl
@[simp] theorem State.silent_msgPending (s : State) : s.silent.msgPending = s.msgPending := rfl
@[simp] theorem State.silent_cfg (s : State) : s.silent.cfg = s.cfg := rfl
@[simp] theorem State.silent_tx (s : State) : s.silent.tx = s.tx := rfl
@[simp] theorem State.silent_catalog (s : State) : s.silent.catalog = s.catalog := rfl
@[simp] theorem State.silent_waiting (s : State) : s.silent.waiting = s.waiting := rfl
@[simp] theorem State.silent_now (s : State) : s.silent.now = s.now := rfl
@[simp] theorem State.silent_turns (s : State) : s.silent.turns = s.turns := rfl
@[simp] theorem State.silent_response (s : State) : s.silent.response = none := rfl

@[simp] theorem State.respond_cap (s : State) (r : Response) : (s.respond r).cap = s.cap := rfl
@[simp] theorem State.respond_msg (s : State) (r : Response) : (s.respond r).msg = s.msg := rfl
@[simp] theorem State.respond_msgPending (s : State) (r : Response) : (s.respond r).msgPending = s.msgPending := rfl
@[simp] theorem State.respond_cfg (s : State) (r : Response) : (s.respond r).cfg = s.cfg := rfl
@[simp] theorem State.respond_tx (s : State) (r : Response) : (s.respond r).tx = s.tx := rfl
@[simp] theorem State.respond_catalog (s : State) (r : Response) : (s.respond r).catalog = s.catalog := rfl
@[simp] theorem State.respond_waiting (s : State) (r : Response) : (s.respond r).waiting = s.waiting := rfl
@[simp] theorem State.respond_now (s : State) (r : Response) : (s.respond r).now = s.now := rfl
@[simp] theorem State.respond_turns (s : State) (r : Response) : (s.respond r).turns = s.turns := rfl
@[simp] theorem State.respond_response (s : State) (r : Response) : (s.respond r).response = some r := rfl

@[simp] theorem State.setNow_cap (s : State) (t : Time) : (s.setNow t).cap = s.cap := rfl
@[simp] theorem State.setNow_msg (s : State) (t : Time) : (s.setNow t).msg = s.msg := rfl
@[simp] theorem State.setNow_msgPending (s : State) (t : Time) : (s.setNow t).msgPending = s.msgPending := rfl
@[simp] theorem State.setNow_cfg (s : State) (t : Time) : (s.setNow t).cfg = s.cfg := rfl
@[simp] theorem State.setNow_tx (s : State) (t : Time) : (s.setNow t).tx = s.tx := rfl
@[simp] theorem State.setNow_catalog (s : State) (t : Time) : (s.setNow t).catalog = s.catalog := rfl
@[simp] theorem State.setNow_waiting (s : State) (t : Time) : (s.setNow t).waiting = s.waiting := rfl
@[simp] theorem State.setNow_now (s : State) (t : Time) : (s.setNow t).now = t := rfl
@[simp] theorem State.setNow_turns (s : State) (t : Time) : (s.setNow t).turns = s.turns := rfl
@[simp] theorem State.setNow_response (s : State) (t : Time) : (s.setNow t).response = s.response := rfl

@[simp] theorem State.setTurns_cap (s : State) (ts : List Turn) : (s.setTurns ts).cap = s.cap := rfl
@[simp] theorem State.setTurns_msg (s : State) (ts : List Turn) : (s.setTurns ts).msg = s.msg := rfl
@[simp] theorem State.setTurns_msgPending (s : State) (ts : List Turn) : (s.setTurns ts).msgPending = s.msgPending := rfl
@[simp] theorem State.setTurns_cfg (s : State) (ts : List Turn) : (s.setTurns ts).cfg = s.cfg := rfl
@[simp] theorem State.setTurns_tx (s : State) (ts : List Turn) : (s.setTurns ts).tx = s.tx := rfl
@[simp] theorem State.setTurns_catalog (s : State) (ts : List Turn) : (s.setTurns ts).catalog = s.catalog := rfl
@[simp] theorem State.setTurns_waiting (s : State) (ts : List Turn) : (s.setTurns ts).waiting = s.waiting := rfl
@[simp] theorem State.setTurns_now (s : State) (ts : List Turn) : (s.setTurns ts).now = s.now := rfl
@[simp] theorem State.setTurns_turns (s : State) (ts : List Turn) : (s.setTurns ts).turns = ts := rfl
@[simp] theorem State.setTurns_response (s : State) (ts : List Turn) : (s.setTurns ts).response = s.response := rfl

@[simp] theorem State.setWaiting_cap (s : State) (w : List SendArgs) : (s.setWaiting w).cap = s.cap := rfl
@[simp] theorem State.setWaiting_msg (s : State) (w : List SendArgs) : (s.setWaiting w).msg = s.msg := rfl
@[simp] theorem State.setWaiting_msgPending (s : State) (w : List SendArgs) : (s.setWaiting w).msgPending = s.msgPending := rfl
@[simp] theorem State.setWaiting_cfg (s : State) (w : List SendArgs) : (s.setWaiting w).cfg = s.cfg := rfl
@[simp] theorem State.setWaiting_tx (s : State) (w : List SendArgs) : (s.setWaiting w).tx = s.tx := rfl
@[simp] theorem State.setWaiting_catalog (s : State) (w : List SendArgs) : (s.setWaiting w).catalog = s.catalog := rfl
@[simp] theorem State.setWaiting_waiting (s : State) (w : List SendArgs) : (s.setWaiting w).waiting = w := rfl
@[simp] theorem State.setWaiting_now (s : State) (w : List SendArgs) : (s.setWaiting w).now = s.now := rfl
@[simp] theorem State.setWaiting_turns (s : State) (w : List SendArgs) : (s.setWaiting w).turns = s.turns := rfl
@[simp] theorem State.setWaiting_response (s : State) (w : List SendArgs) : (s.setWaiting w).response = s.response := rfl

@[simp] theorem State.setCap_cap (s : State) (c : Capture) : (s.setCap c).cap = c := rfl
@[simp] theorem State.setCap_msg (s : State) (c : Capture) : (s.setCap c).msg = s.msg := rfl
@[simp] theorem State.setCap_msgPending (s : State) (c : Capture) : (s.setCap c).msgPending = s.msgPending := rfl
@[simp] theorem State.setCap_cfg (s : State) (c : Capture) : (s.setCap c).cfg = s.cfg := rfl
@[simp] theorem State.setCap_tx (s : State) (c : Capture) : (s.setCap c).tx = s.tx := rfl
@[simp] theorem State.setCap_catalog (s : State) (c : Capture) : (s.setCap c).catalog = s.catalog := rfl
@[simp] theorem State.setCap_waiting (s : State) (c : Capture) : (s.setCap c).waiting = s.waiting := rfl
@[simp] theorem State.setCap_now (s : State) (c : Capture) : (s.setCap c).now = s.now := rfl
@[simp] theorem State.setCap_turns (s : State) (c : Capture) : (s.setCap c).turns = s.turns := rfl
@[simp] theorem State.setCap_response (s : State) (c : Capture) : (s.setCap c).response = s.response := rfl

@[simp] theorem State.setCfg_cap (s : State) (c : HostConfig) : (s.setCfg c).cap = s.cap := rfl
@[simp] theorem State.setCfg_msg (s : State) (c : HostConfig) : (s.setCfg c).msg = s.msg := rfl
@[simp] theorem State.setCfg_msgPending (s : State) (c : HostConfig) : (s.setCfg c).msgPending = s.msgPending := rfl
@[simp] theorem State.setCfg_cfg (s : State) (c : HostConfig) : (s.setCfg c).cfg = c := rfl
@[simp] theorem State.setCfg_tx (s : State) (c : HostConfig) : (s.setCfg c).tx = s.tx := rfl
@[simp] theorem State.setCfg_catalog (s : State) (c : HostConfig) : (s.setCfg c).catalog = s.catalog := rfl
@[simp] theorem State.setCfg_waiting (s : State) (c : HostConfig) : (s.setCfg c).waiting = s.waiting := rfl
@[simp] theorem State.setCfg_now (s : State) (c : HostConfig) : (s.setCfg c).now = s.now := rfl
@[simp] theorem State.setCfg_turns (s : State) (c : HostConfig) : (s.setCfg c).turns = s.turns := rfl
@[simp] theorem State.setCfg_response (s : State) (c : HostConfig) : (s.setCfg c).response = s.response := rfl

@[simp] theorem State.setTx_cap (s : State) (t : Transmitter) : (s.setTx t).cap = s.cap := rfl
@[simp] theorem State.setTx_msg (s : State) (t : Transmitter) : (s.setTx t).msg = s.msg := rfl
@[simp] theorem State.setTx_msgPending (s : State) (t : Transmitter) : (s.setTx t).msgPending = s.msgPending := rfl
@[simp] theorem State.setTx_cfg (s : State) (t : Transmitter) : (s.setTx t).cfg = s.cfg := rfl
@[simp] theorem State.setTx_tx (s : State) (t : Transmitter) : (s.setTx t).tx = t := rfl
@[simp] theorem State.setTx_catalog (s : State) (t : Transmitter) : (s.setTx t).catalog = s.catalog := rfl
@[simp] theorem State.setTx_waiting (s : State) (t : Transmitter) : (s.setTx t).waiting = s.waiting := rfl
@[simp] theorem State.setTx_now (s : State) (t : Transmitter) : (s.setTx t).now = s.now := rfl
@[simp] theorem State.setTx_turns (s : State) (t : Transmitter) : (s.setTx t).turns = s.turns := rfl
@[simp] theorem State.setTx_response (s : State) (t : Transmitter) : (s.setTx t).response = s.response := rfl

@[simp] theorem State.commitMessage_cap (s : State) (m : Message) : (s.commitMessage m).cap = s.cap := rfl
@[simp] theorem State.commitMessage_msg (s : State) (m : Message) : (s.commitMessage m).msg = m := rfl
@[simp] theorem State.commitMessage_msgPending (s : State) (m : Message) : (s.commitMessage m).msgPending = true := rfl
@[simp] theorem State.commitMessage_cfg (s : State) (m : Message) : (s.commitMessage m).cfg = s.cfg := rfl
@[simp] theorem State.commitMessage_tx (s : State) (m : Message) : (s.commitMessage m).tx = s.tx := rfl
@[simp] theorem State.commitMessage_catalog (s : State) (m : Message) : (s.commitMessage m).catalog = s.catalog := rfl
@[simp] theorem State.commitMessage_waiting (s : State) (m : Message) : (s.commitMessage m).waiting = s.waiting := rfl
@[simp] theorem State.commitMessage_now (s : State) (m : Message) : (s.commitMessage m).now = s.now := rfl
@[simp] theorem State.commitMessage_turns (s : State) (m : Message) : (s.commitMessage m).turns = s.turns := rfl
@[simp] theorem State.commitMessage_response (s : State) (m : Message) : (s.commitMessage m).response = s.response := rfl

@[simp] theorem State.clearPending_cap (s : State) : s.clearPending.cap = s.cap := rfl
@[simp] theorem State.clearPending_msg (s : State) : s.clearPending.msg = s.msg := rfl
@[simp] theorem State.clearPending_msgPending (s : State) : s.clearPending.msgPending = false := rfl
@[simp] theorem State.clearPending_cfg (s : State) : s.clearPending.cfg = s.cfg := rfl
@[simp] theorem State.clearPending_tx (s : State) : s.clearPending.tx = s.tx := rfl
@[simp] theorem State.clearPending_catalog (s : State) : s.clearPending.catalog = s.catalog := rfl
@[simp] theorem State.clearPending_waiting (s : State) : s.clearPending.waiting = s.waiting := rfl
@[simp] theorem State.clearPending_now (s : State) : s.clearPending.now = s.now := rfl
@[simp] theorem State.clearPending_turns (s : State) : s.clearPending.turns = s.turns := rfl
@[simp] theorem State.clearPending_response (s : State) : s.clearPending.response = s.response := rfl

@[simp] theorem State.failSend_cap (s : State) (r : TxResult) : (s.failSend r).cap = s.cap := rfl
@[simp] theorem State.failSend_msg (s : State) (r : TxResult) : (s.failSend r).msg = s.msg := rfl
@[simp] theorem State.failSend_msgPending (s : State) (r : TxResult) : (s.failSend r).msgPending = s.msgPending := rfl
@[simp] theorem State.failSend_cfg (s : State) (r : TxResult) : (s.failSend r).cfg = s.cfg := rfl
@[simp] theorem State.failSend_tx (s : State) (r : TxResult) : (s.failSend r).tx = { s.tx with result := r } := rfl
@[simp] theorem State.failSend_catalog (s : State) (r : TxResult) : (s.failSend r).catalog = s.catalog := rfl
@[simp] theorem State.failSend_waiting (s : State) (r : TxResult) : (s.failSend r).waiting = s.waiting := rfl
@[simp] theorem State.failSend_now (s : State) (r : TxResult) : (s.failSend r).now = s.now := rfl
@[simp] theorem State.failSend_turns (s : State) (r : TxResult) : (s.failSend r).turns = s.turns := rfl
@[simp] theorem State.failSend_response (s : State) (r : TxResult) : (s.failSend r).response = some (.send r) := rfl

@[simp] theorem State.later_cap (s : State) (n : Nat) : (s.later n).cap = s.cap := rfl
@[simp] theorem State.later_msg (s : State) (n : Nat) : (s.later n).msg = s.msg := rfl
@[simp] theorem State.later_msgPending (s : State) (n : Nat) : (s.later n).msgPending = s.msgPending := rfl
@[simp] theorem State.later_cfg (s : State) (n : Nat) : (s.later n).cfg = s.cfg := rfl
@[simp] theorem State.later_tx (s : State) (n : Nat) : (s.later n).tx = s.tx := rfl
@[simp] theorem State.later_catalog (s : State) (n : Nat) : (s.later n).catalog = s.catalog := rfl
@[simp] theorem State.later_waiting (s : State) (n : Nat) : (s.later n).waiting = s.waiting := rfl
@[simp] theorem State.later_now (s : State) (n : Nat) : (s.later n).now = s.now + BitVec.ofNat Config.timeW n := rfl
@[simp] theorem State.later_turns (s : State) (n : Nat) : (s.later n).turns = s.turns := rfl
@[simp] theorem State.later_response (s : State) (n : Nat) : (s.later n).response = s.response := rfl

/-! ## The updates of the capture state -/

@[simp] theorem Capture.stamp_frame (c : Capture) (t : Time) : (c.stamp t).frame = c.frame := rfl
@[simp] theorem Capture.stamp_lastEdgeTimestamp (c : Capture) (t : Time) : (c.stamp t).lastEdgeTimestamp = t := rfl
@[simp] theorem Capture.stamp_repeatCount (c : Capture) (t : Time) : (c.stamp t).repeatCount = c.repeatCount := rfl
@[simp] theorem Capture.stamp_changeCount (c : Capture) (t : Time) : (c.stamp t).changeCount = c.changeCount := rfl

@[simp] theorem Capture.clearRepeat_frame (c : Capture) : c.clearRepeat.frame = c.frame := rfl
@[simp] theorem Capture.clearRepeat_lastEdgeTimestamp (c : Capture) : c.clearRepeat.lastEdgeTimestamp = c.lastEdgeTimestamp := rfl
@[simp] theorem Capture.clearRepeat_repeatCount (c : Capture) : c.clearRepeat.repeatCount = 0 := rfl
@[simp] theorem Capture.clearRepeat_changeCount (c : Capture) : c.clearRepeat.changeCount = c.changeCount := rfl

@[simp] theorem Capture.startFrame_frame (c : Capture) : c.startFrame.frame = c.frame := rfl
@[simp] theorem Capture.startFrame_lastEdgeTimestamp (c : Capture) : c.startFrame.lastEdgeTimestamp = c.lastEdgeTimestamp := rfl
@[simp] theorem Capture.startFrame_repeatCount (c : Capture) : c.startFrame.repeatCount = c.repeatCount := rfl
@[simp] theorem Capture.startFrame_changeCount (c : Capture) : c.startFrame.changeCount = 0 := rfl

@[simp] theorem Capture.countMatch_frame (c : Capture) : c.countMatch.frame = c.frame := rfl
@[simp] theorem Capture.countMatch_lastEdgeTimestamp (c : Capture) : c.countMatch.lastEdgeTimestamp = c.lastEdgeTimestamp := rfl
@[simp] theorem Capture.countMatch_repeatCount (c : Capture) : c.countMatch.repeatCount = c.repeatCount + 1 := rfl

@[simp] theorem Capture.store_frame (c : Capture) (d : Duration) : (c.store d).frame = c.frame.setIfInBounds c.changeCount.val d := rfl
@[simp] theorem Capture.store_lastEdgeTimestamp (c : Capture) (d : Duration) : (c.store d).lastEdgeTimestamp = c.lastEdgeTimestamp := rfl
@[simp] theorem Capture.store_repeatCount (c : Capture) (d : Duration) : (c.store d).repeatCount = c.repeatCount := rfl
@[simp] theorem Capture.store_changeCount (c : Capture) (d : Duration) : (c.store d).changeCount = Fin.ofNat _ (c.changeCount.val + 1) := rfl

@[simp] theorem Capture.guardOverflow_frame (c : Capture) : c.guardOverflow.frame = c.frame := by
  unfold Capture.guardOverflow; split <;> rfl
@[simp] theorem Capture.guardOverflow_lastEdgeTimestamp (c : Capture) : c.guardOverflow.lastEdgeTimestamp = c.lastEdgeTimestamp := by
  unfold Capture.guardOverflow; split <;> rfl

@[simp] theorem Capture.countMatch_changeCount_val (c : Capture) :
    c.countMatch.changeCount.val = c.changeCount.val - 1 := rfl

/-! ## The updates of the transmitter -/

@[simp] theorem Transmitter.rise_protocolId (t : Transmitter) (h : Nat) (n : Time) :
    (t.rise h n).protocolId = t.protocolId := rfl
@[simp] theorem Transmitter.rise_pulseUnitUs (t : Transmitter) (h : Nat) (n : Time) :
    (t.rise h n).pulseUnitUs = t.pulseUnitUs := rfl
@[simp] theorem Transmitter.rise_bitLength (t : Transmitter) (h : Nat) (n : Time) :
    (t.rise h n).bitLength = t.bitLength := rfl
@[simp] theorem Transmitter.rise_state (t : Transmitter) (h : Nat) (n : Time) :
    (t.rise h n).state = t.state := rfl
@[simp] theorem Transmitter.rise_bits (t : Transmitter) (h : Nat) (n : Time) :
    (t.rise h n).bits = t.bits := rfl
@[simp] theorem Transmitter.rise_bitIdx (t : Transmitter) (h : Nat) (n : Time) :
    (t.rise h n).bitIdx = t.bitIdx := rfl
@[simp] theorem Transmitter.rise_passLeft (t : Transmitter) (h : Nat) (n : Time) :
    (t.rise h n).passLeft = t.passLeft := rfl
@[simp] theorem Transmitter.rise_segmentStart (t : Transmitter) (h : Nat) (n : Time) :
    (t.rise h n).segmentStart = n := rfl
@[simp] theorem Transmitter.rise_pendingDelay (t : Transmitter) (h : Nat) (n : Time) :
    (t.rise h n).pendingDelay = BitVec.ofNat Config.delayW h := rfl
@[simp] theorem Transmitter.rise_quietStart (t : Transmitter) (h : Nat) (n : Time) :
    (t.rise h n).quietStart = t.quietStart := rfl
@[simp] theorem Transmitter.rise_pin (t : Transmitter) (h : Nat) (n : Time) :
    (t.rise h n).pin = true := rfl
@[simp] theorem Transmitter.rise_result (t : Transmitter) (h : Nat) (n : Time) :
    (t.rise h n).result = t.result := rfl

@[simp] theorem Transmitter.drop_protocolId (t : Transmitter) (l : Nat) (n : Time) :
    (t.drop l n).protocolId = t.protocolId := rfl
@[simp] theorem Transmitter.drop_pulseUnitUs (t : Transmitter) (l : Nat) (n : Time) :
    (t.drop l n).pulseUnitUs = t.pulseUnitUs := rfl
@[simp] theorem Transmitter.drop_bitLength (t : Transmitter) (l : Nat) (n : Time) :
    (t.drop l n).bitLength = t.bitLength := rfl
@[simp] theorem Transmitter.drop_state (t : Transmitter) (l : Nat) (n : Time) :
    (t.drop l n).state = t.state := rfl
@[simp] theorem Transmitter.drop_bits (t : Transmitter) (l : Nat) (n : Time) :
    (t.drop l n).bits = t.bits := rfl
@[simp] theorem Transmitter.drop_bitIdx (t : Transmitter) (l : Nat) (n : Time) :
    (t.drop l n).bitIdx = t.bitIdx := rfl
@[simp] theorem Transmitter.drop_passLeft (t : Transmitter) (l : Nat) (n : Time) :
    (t.drop l n).passLeft = t.passLeft := rfl
@[simp] theorem Transmitter.drop_segmentStart (t : Transmitter) (l : Nat) (n : Time) :
    (t.drop l n).segmentStart = n := rfl
@[simp] theorem Transmitter.drop_pendingDelay (t : Transmitter) (l : Nat) (n : Time) :
    (t.drop l n).pendingDelay = BitVec.ofNat Config.delayW l := rfl
@[simp] theorem Transmitter.drop_quietStart (t : Transmitter) (l : Nat) (n : Time) :
    (t.drop l n).quietStart = t.quietStart := rfl
@[simp] theorem Transmitter.drop_pin (t : Transmitter) (l : Nat) (n : Time) :
    (t.drop l n).pin = false := rfl
@[simp] theorem Transmitter.drop_result (t : Transmitter) (l : Nat) (n : Time) :
    (t.drop l n).result = t.result := rfl

@[simp] theorem Transmitter.load_protocolId (t : Transmitter) (x : Accepted) (p : PassCount) (n : Time) :
    (t.load x p n).protocolId = x.proto := rfl
@[simp] theorem Transmitter.load_pulseUnitUs (t : Transmitter) (x : Accepted) (p : PassCount) (n : Time) :
    (t.load x p n).pulseUnitUs = x.unit := rfl
@[simp] theorem Transmitter.load_bitLength (t : Transmitter) (x : Accepted) (p : PassCount) (n : Time) :
    (t.load x p n).bitLength = BitVec.ofNat Config.bitIdxW x.onAirLen := rfl
@[simp] theorem Transmitter.load_state (t : Transmitter) (x : Accepted) (p : PassCount) (n : Time) :
    (t.load x p n).state = if p = 0 then .quiet else if x.proto.toNat = Config.nexaProto then .leadSync else .bits := rfl
@[simp] theorem Transmitter.load_bits (t : Transmitter) (x : Accepted) (p : PassCount) (n : Time) :
    (t.load x p n).bits = BitVec.ofNat Config.maxLen x.onAirBits := rfl
@[simp] theorem Transmitter.load_bitIdx (t : Transmitter) (x : Accepted) (p : PassCount) (n : Time) :
    (t.load x p n).bitIdx = 0 := rfl
@[simp] theorem Transmitter.load_passLeft (t : Transmitter) (x : Accepted) (p : PassCount) (n : Time) :
    (t.load x p n).passLeft = p := rfl
@[simp] theorem Transmitter.load_segmentStart (t : Transmitter) (x : Accepted) (p : PassCount) (n : Time) :
    (t.load x p n).segmentStart = t.segmentStart := rfl
@[simp] theorem Transmitter.load_pendingDelay (t : Transmitter) (x : Accepted) (p : PassCount) (n : Time) :
    (t.load x p n).pendingDelay = t.pendingDelay := rfl
@[simp] theorem Transmitter.load_quietStart (t : Transmitter) (x : Accepted) (p : PassCount) (n : Time) :
    (t.load x p n).quietStart = if p = 0 then n else t.quietStart := rfl
@[simp] theorem Transmitter.load_pin (t : Transmitter) (x : Accepted) (p : PassCount) (n : Time) :
    (t.load x p n).pin = t.pin := rfl
@[simp] theorem Transmitter.load_result (t : Transmitter) (x : Accepted) (p : PassCount) (n : Time) :
    (t.load x p n).result = t.result := rfl

@[simp] theorem Transmitter.advance_protocolId (t : Transmitter) (n : Time) : (t.advance n).protocolId = t.protocolId := by
  unfold Transmitter.advance; split <;> (try split) <;> rfl
@[simp] theorem Transmitter.advance_pulseUnitUs (t : Transmitter) (n : Time) : (t.advance n).pulseUnitUs = t.pulseUnitUs := by
  unfold Transmitter.advance; split <;> (try split) <;> rfl
@[simp] theorem Transmitter.advance_bitLength (t : Transmitter) (n : Time) : (t.advance n).bitLength = t.bitLength := by
  unfold Transmitter.advance; split <;> (try split) <;> rfl
@[simp] theorem Transmitter.advance_bits (t : Transmitter) (n : Time) : (t.advance n).bits = t.bits := by
  unfold Transmitter.advance; split <;> (try split) <;> rfl
@[simp] theorem Transmitter.advance_segmentStart (t : Transmitter) (n : Time) : (t.advance n).segmentStart = t.segmentStart := by
  unfold Transmitter.advance; split <;> (try split) <;> rfl
@[simp] theorem Transmitter.advance_pendingDelay (t : Transmitter) (n : Time) : (t.advance n).pendingDelay = t.pendingDelay := by
  unfold Transmitter.advance; split <;> (try split) <;> rfl
@[simp] theorem Transmitter.advance_pin (t : Transmitter) (n : Time) : (t.advance n).pin = t.pin := by
  unfold Transmitter.advance; split <;> (try split) <;> rfl
@[simp] theorem Transmitter.advance_result (t : Transmitter) (n : Time) : (t.advance n).result = t.result := by
  unfold Transmitter.advance; split <;> (try split) <;> rfl

end Sys2Proof.Machine
end

