-- ==== Sys2Proof/Laws/Ops.lean ====
section
/-! SUPPORT. What the shared operations of Machine/Ops.lean do: times and durations (R79, R80), the ring (R61), the catalog
(R62, R67), and the sequencing of steps. -/

namespace Sys2Proof.Machine

/-! ## Times and durations -/

/-- `absdiff` is the distance of the integers (R80). -/
theorem absdiff_cast (a b : Nat) : (absdiff a b : ℤ) = |(a : ℤ) - b| := by
  unfold absdiff
  split
  · rw [abs_of_nonneg] <;> omega
  · rw [abs_of_neg] <;> omega

@[simp] theorem tsub_same (t : Time) : tsub t t = 0 := by simp [tsub]

/-- Elapsed time as a number (R79). -/
theorem tsub_toNat (a b : Time) : (tsub a b).toNat = (a.toNat + 2 ^ 64 - b.toNat) % 2 ^ 64 := by
  have hb := time_lt b
  rw [tsub, BitVec.toNat_sub]
  simp only [Config.timeW_eq]
  congr 1
  omega

/-- Elapsed time grows with the counter, as long as it does not wrap. -/
theorem tsub_later (a b : Time) (n : Nat) (h : (tsub a b).toNat + n < 2 ^ 64) :
    (tsub (a + BitVec.ofNat Config.timeW n) b).toNat = (tsub a b).toNat + n := by
  have e : tsub (a + BitVec.ofNat Config.timeW n) b = tsub a b + BitVec.ofNat Config.timeW n := by unfold tsub; ring
  rw [e, BitVec.toNat_add, BitVec.toNat_ofNat]
  simp only [Config.timeW_eq]
  omega

/-- The first counter value at which `d` microseconds have passed since `b` (R216). -/
theorem first_instant (a b : Time) (d : Nat) (hd : d < 2 ^ 64) :
    d ≤ (tsub (a + BitVec.ofNat Config.timeW (d - (tsub a b).toNat)) b).toNat ∧
      ∀ n, n < d - (tsub a b).toNat → (tsub (a + BitVec.ofNat Config.timeW n) b).toNat < d := by
  have h := time_lt (tsub a b)
  constructor
  · by_cases hx : d ≤ (tsub a b).toNat
    · rw [Nat.sub_eq_zero_of_le hx]
      simpa using hx
    · rw [tsub_later] <;> omega
  · intro n hn
    rw [tsub_later] <;> omega

/-! ## The ring -/

/-- Storing at `i` leaves every other entry. -/
theorem frameAt_set_ne (f : Vector Duration Config.capacity) (d : Duration) {i j : Nat} (h : j ≠ i) :
    frameAt (f.setIfInBounds i d) j = frameAt f j := by
  unfold frameAt
  rw [Vector.getElem?_setIfInBounds_ne (Ne.symm h)]

/-- What was stored at `i` is read there. -/
theorem frameAt_set_self (f : Vector Duration Config.capacity) (d : Duration) {i : Nat} (h : i < Config.capacity) :
    frameAt (f.setIfInBounds i d) i = d := by
  unfold frameAt
  rw [Vector.getElem?_setIfInBounds_self_of_lt h]
  rfl

/-! ## The catalog -/

/-- An id of a record, as an inequality (R67). -/
@[simp] theorem isProtocolId_iff (p : Nat) : isProtocolId p = true ↔ 1 ≤ p ∧ p ≤ 6 := by
  simp [isProtocolId]

/-- In range the record is read at the id less one (R62). -/
theorem protocolAt_of_le {c : Vector Protocol Config.nProtocols} {p : Nat} (h1 : 1 ≤ p) (h6 : p ≤ 6) :
    protocolAt c p = getElem? c (p - 1) := by
  rw [protocolAt, if_pos (by simp [h1, h6])]

/-- An id in range has a record (R124). -/
theorem protocolAt_isSome {c : Vector Protocol Config.nProtocols} {p : Nat} (h : isProtocolId p = true) :
    ∃ r, protocolAt c p = some r := by
  have h' := (isProtocolId_iff p).mp h
  rw [protocolAt, if_pos h, ← Option.isSome_iff_exists]
  have h6 : p - 1 < 6 := by omega
  simp [h6]

/-- Outside 1 .. 6 there is no record (R67). -/
theorem protocolAt_of_bad {c : Vector Protocol Config.nProtocols} {p : Nat} (h : p = 0 ∨ 7 ≤ p) :
    protocolAt c p = none := by
  have e : ¬ isProtocolId p = true := by
    rw [isProtocolId_iff]
    omega
  rw [protocolAt, if_neg e]

/-- A record read says that the id is in range (R67). -/
theorem isProtocolId_of_protocolAt {c : Vector Protocol Config.nProtocols} {p : Nat} {r : Protocol}
    (h : protocolAt c p = some r) : isProtocolId p = true := by
  by_contra hn
  simp [protocolAt, hn] at h

/-! ## Steps in sequence -/

/-- Two steps answer a next state exactly when both do. -/
theorem andThen_next {o : Result} {k : State → Result} {t : State} :
    andThen o k = .next t ↔ ∃ u, o = .next u ∧ k u = .next t := by
  cases o <;> simp [andThen]

end Sys2Proof.Machine
end

