-- ==== Sys2Proof/Laws/Catalog.lean ====
section
/-! SUPPORT. The numbers of a catalog record and their bits, format C (R100). -/

namespace Sys2Proof.Machine

/-- A ratio as bits is the ratio. -/
@[simp] theorem ratioBits_toNat (r : Ratio) : (ratioBits r).toNat = r.toNat := by
  have := r.toNat_le
  simp only [ratioBits, BitVec.toNat_ofNat, Config.ratioW_eq]
  omega

/-- A base unit as bits is the unit. -/
@[simp] theorem baseUnitBits_toNat (u : BaseUnit) : (baseUnitBits u).toNat = u.toNat := by
  have := u.toNat_le
  simp only [baseUnitBits, BitVec.toNat_ofNat, Config.pulseW_eq]
  omega

/-- Bits are a ratio exactly when they are that ratio's bits. -/
theorem ratioOf_eq_some {b : RatioBits} {r : Ratio} : ratioOf b = some r ↔ b = ratioBits r := by
  have hb := ratioBits_lt b
  have hr := r.toNat_pos
  constructor
  · intro h
    unfold ratioOf at h
    split at h
    · split at h
      · cases h
      · rename_i hlt hne
        have hne' : b.toNat ≠ 0 := fun e => hne (BitVec.eq_of_toNat_eq e)
        cases h
        apply BitVec.eq_of_toNat_eq
        rw [ratioBits_toNat]
        show b.toNat = b.toNat - 1 + 1
        omega
    · cases h
  · rintro rfl
    have hne : ratioBits r ≠ 0 := by
      intro e
      have := congrArg BitVec.toNat e
      rw [ratioBits_toNat] at this
      exact absurd this (by show r.toNat ≠ 0; omega)
    have hlt : (ratioBits r).toNat - 1 < Config.maxRatio - 1 + 1 := by
      rw [ratioBits_toNat]
      exact r.pred.isLt
    rw [ratioOf, dif_pos hlt, if_neg hne]
    congr
    rw [ratioBits_toNat]
    exact Nat.add_sub_cancel ..

/-- Bits are a base unit exactly when they are that unit's bits. -/
theorem baseUnitOf_eq_some {b : PulseUnit} {u : BaseUnit} : baseUnitOf b = some u ↔ b = baseUnitBits u := by
  have hb := pulseUnit_lt b
  have hu := u.toNat_pos
  constructor
  · intro h
    unfold baseUnitOf at h
    split at h
    · split at h
      · cases h
      · rename_i hlt hne
        have hne' : b.toNat ≠ 0 := fun e => hne (BitVec.eq_of_toNat_eq e)
        cases h
        apply BitVec.eq_of_toNat_eq
        rw [baseUnitBits_toNat]
        show b.toNat = b.toNat - 1 + 1
        omega
    · cases h
  · rintro rfl
    have hne : baseUnitBits u ≠ 0 := by
      intro e
      have := congrArg BitVec.toNat e
      rw [baseUnitBits_toNat] at this
      exact absurd this (by show u.toNat ≠ 0; omega)
    have hlt : (baseUnitBits u).toNat - 1 < Config.maxBaseUnit - 1 + 1 := by
      rw [baseUnitBits_toNat]
      exact u.pred.isLt
    rw [baseUnitOf, dif_pos hlt, if_neg hne]
    congr
    rw [baseUnitBits_toNat]
    exact Nat.add_sub_cancel ..

/-- Bits are a ratio unless they are 0. -/
theorem ratioOf_isSome {b : RatioBits} : (ratioOf b).isSome = true ↔ b ≠ 0 := by
  have hb := ratioBits_lt b
  have hlt : b.toNat - 1 < Config.maxRatio - 1 + 1 := by
    show b.toNat - 1 < 255
    omega
  rw [ratioOf, dif_pos hlt]
  split <;> simp_all

/-- Bits are a base unit unless they are 0. -/
theorem baseUnitOf_isSome {b : PulseUnit} : (baseUnitOf b).isSome = true ↔ b ≠ 0 := by
  have hb := pulseUnit_lt b
  have hlt : b.toNat - 1 < Config.maxBaseUnit - 1 + 1 := by
    show b.toNat - 1 < 4294967295
    omega
  rw [baseUnitOf, dif_pos hlt]
  split <;> simp_all

/-- Everything a word that is a record says of it. -/
theorem unpackProtocol_eq_some {w : RecordWord} {r : Protocol} :
    unpackProtocol w = some r ↔
      baseUnitOf (w.extractLsb' 48 32) = some r.pulseUnitUs ∧ ratioOf (w.extractLsb' 40 8) = some r.syncHigh ∧
        ratioOf (w.extractLsb' 32 8) = some r.syncLow ∧ ratioOf (w.extractLsb' 24 8) = some r.zeroHigh ∧
        ratioOf (w.extractLsb' 16 8) = some r.zeroLow ∧ ratioOf (w.extractLsb' 8 8) = some r.oneHigh ∧
        ratioOf (w.extractLsb' 0 8) = some r.oneLow := by
  obtain ⟨u, sh, sl, zh, zl, oh, ol⟩ := r
  simp only [unpackProtocol, Option.bind_eq_bind, Option.bind_eq_some_iff, Option.some.injEq, Protocol.mk.injEq]
  constructor
  · rintro ⟨_, h1, _, h2, _, h3, _, h4, _, h5, _, h6, _, h7, rfl, rfl, rfl, rfl, rfl, rfl, rfl⟩
    exact ⟨h1, h2, h3, h4, h5, h6, h7⟩
  · rintro ⟨h1, h2, h3, h4, h5, h6, h7⟩
    exact ⟨_, h1, _, h2, _, h3, _, h4, _, h5, _, h6, _, h7, rfl, rfl, rfl, rfl, rfl, rfl, rfl⟩

end Sys2Proof.Machine
end

