-- ==== Sys2Proof/Laws/Decoder.lean ====
section
/-! SUPPORT. What the decoder's operations do (42_decoder.md): the pairs of a frame, the accumulator, and everything a
successful attempt says. -/

namespace Sys2Proof.Machine

/-- No duration fits a window of no width: the test is strict (R157, R168). -/
@[simp] theorem matchDuration_zero_tol (unit ratio d : Nat) : matchDuration 0 unit ratio d = false := by
  simp [matchDuration]

/-- A frame of length `cc` has `cc / 2` pairs (R159). -/
@[simp] theorem dataPairs_length (f : Vector Duration Config.capacity) (cc : Nat) : (dataPairs f cc).length = cc / 2 := by
  simp [dataPairs]

/-- The accumulator stays below the power of two of the bits read: nothing is lost (R82). -/
theorem readCode_lt {r : Protocol} {tol unit : Nat} {l : List (Duration × Duration)} {c k n : Nat}
    (h : readCode r tol unit l c = some n) (hc : c < 2 ^ k) : n < 2 ^ (k + l.length) := by
  induction l generalizing c k with
  | nil =>
    obtain rfl : c = n := by simpa [readCode] using h
    simpa using hc
  | cons x xs ih =>
    obtain ⟨hi, lo⟩ := x
    rw [readCode] at h
    split at h
    · rename_i b _
      have := ih (k := k + 1) h (by cases b <;> simp <;> omega)
      rwa [List.length_cons, show k + (xs.length + 1) = k + 1 + xs.length by omega]
    · cases h

/-- The whole of the accumulator: the code exists when every pair is a zero or a one, zero tested first (R160, R161, R164). -/
theorem readCode_map (r : Protocol) (tol unit : Nat) (pair : Nat → Duration × Duration) (ks : List Nat) (c : Nat) :
    let zero := fun k => matchDuration tol unit r.zeroHigh.toNat (pair k).1.toNat
      && matchDuration tol unit r.zeroLow.toNat (pair k).2.toNat
    let one := fun k => matchDuration tol unit r.oneHigh.toNat (pair k).1.toNat
      && matchDuration tol unit r.oneLow.toNat (pair k).2.toNat
    readCode r tol unit (ks.map pair) c =
      if ∀ k ∈ ks, zero k = true ∨ one k = true then
        some (ks.foldl (fun c k => 2 * c + (if zero k then 0 else 1)) c)
      else none := by
  intro zero one
  induction ks generalizing c with
  | nil => simp [readCode]
  | cons k ks ih =>
    simp only [List.map_cons, readCode, readPair]
    change (match (if zero k = true then some false else if one k = true then some true else none) with
      | some b => _ | none => _) = _
    by_cases h1 : zero k = true
    · simp [h1, ih]
    · by_cases h2 : one k = true
      · simp [h1, h2, ih]
      · simp [h1, h2]

/-- Everything a successful attempt says of its message (R155, R162, R163, R166). -/
theorem decodeFrame_some {r : Protocol} {p : Nat} {f : Vector Duration Config.capacity} {tol cc : Nat} {now : Time}
    {m : Message} (h : decodeFrame r p f tol cc now = some m) :
    ∃ code, readCode r tol (derivedUnit r f) (dataPairs f cc) 0 = some code ∧ code < 2 ^ (cc / 2) ∧
      6 < cc ∧ code ≠ 0 ∧
      m = { code := BitVec.ofNat Config.codeW code, timestamp := now, bitLength := BitVec.ofNat Config.msgLenW (cc / 2),
            pulseUnitUs := BitVec.ofNat Config.durW (derivedUnit r f), protocolId := BitVec.ofNat Config.protoIdW p } := by
  unfold decodeFrame at h
  dsimp only at h
  split at h
  · cases h
  · rename_i code hc
    split at h
    · rename_i hg
      refine ⟨code, hc, ?_, hg.1, hg.2, by simpa using h.symm⟩
      have := readCode_lt hc (k := 0) (by omega)
      simpa using this
    · cases h

/-- A decoded message in the numbers of R29 and R162. -/
theorem Message.decoded_iff (m : Message) :
    m.Decoded ↔ m.code ≠ 0 ∧ 3 ≤ m.bitLength.toNat ∧ m.bitLength.toNat ≤ 33 ∧ isProtocolId m.protocolId.toNat = true :=
  Iff.rfl

/-- The registers of a new message are those of a decode, when the frame is a frame of the ring (R29, R31, R162). -/
theorem decodeFrame_decoded {r : Protocol} {p : Nat} {f : Vector Duration Config.capacity} {tol cc : Nat} {now : Time}
    {m : Message} (h : decodeFrame r p f tol cc now = some m) (hp : isProtocolId p = true) (hcc : cc ≤ Config.capacity) :
    m.Decoded ∧ m.timestamp = now := by
  obtain ⟨code, -, hlt, h6, hne, rfl⟩ := decodeFrame_some h
  have hcc' : cc ≤ 67 := hcc
  rw [Message.decoded_iff]
  have hp' := (isProtocolId_iff p).mp hp
  have hlt' : code < 2 ^ 33 := lt_of_lt_of_le hlt (Nat.pow_le_pow_right (by omega) (by omega))
  refine ⟨⟨?_, ?_, ?_, ?_⟩, rfl⟩
  · intro e
    have := congrArg BitVec.toNat e
    simp only [BitVec.toNat_ofNat, BitVec.ofNat_eq_ofNat, Config.codeW_eq] at this
    omega
  · simp only [BitVec.toNat_ofNat, Config.msgLenW_eq]
    omega
  · simp only [BitVec.toNat_ofNat, Config.msgLenW_eq]
    omega
  · rw [isProtocolId_iff]
    simp only [BitVec.toNat_ofNat, Config.protoIdW_eq]
    omega

/-- A successful attempt on the state, for a frame of the ring. -/
theorem decodeAttempt_decoded {s : State} {cc p : Nat} {m : Message} (h : decodeAttempt s cc p = some m)
    (hcc : cc ≤ Config.capacity) : m.Decoded ∧ m.timestamp = s.now := by
  unfold decodeAttempt at h
  split at h
  · cases h
  · rename_i r hr
    exact decodeFrame_decoded h (isProtocolId_of_protocolAt hr) hcc

/-- With no tolerance no attempt succeeds (R168). -/
theorem decodeFrame_zero_tol (r : Protocol) (p : Nat) (f : Vector Duration Config.capacity) (cc : Nat) (now : Time) :
    decodeFrame r p f 0 cc now = none := by
  rw [Option.eq_none_iff_forall_ne_some]
  intro m h
  obtain ⟨code, hc, -, h6, -, -⟩ := decodeFrame_some h
  have hl := dataPairs_length f cc
  cases hp : dataPairs f cc with
  | nil =>
    rw [hp, List.length_nil] at hl
    omega
  | cons x xs =>
    obtain ⟨hi, lo⟩ := x
    rw [hp] at hc
    simp [readCode, readPair] at hc

/-- What a directly called DECODE answers, when the record exists (R155). -/
theorem execDecodeTry_of_record {p : ProtoId} {cc : Fin Config.capacity} {s : State} {r : Protocol}
    (hr : protocolAt s.catalog p.toNat = some r) :
    execDecodeTry p cc s =
      match decodeFrame r p.toNat s.cap.frame s.cfg.tolerancePercent.toNat cc.val s.now with
      | some m => .next ((s.commitMessage m).respond (.decoded true))
      | none => .next (s.respond (.decoded false)) := by
  cases hd : decodeFrame r p.toNat s.cap.frame s.cfg.tolerancePercent.toNat cc.val s.now <;>
    simp only [execDecodeTry, hr, hd]

end Sys2Proof.Machine
end

