-- ==== Sys2Proof/Laws/Edge.lean ====
section
/-! SUPPORT. What an edge does (41_edge_capture.md), one equation for each way through its step, and everything an edge can
change. -/

namespace Sys2Proof.Machine

/-! ## The ring and its counter -/

theorem Capture.store_count {c : Capture} {d : Duration} (h : c.changeCount.val < 67) :
    (c.store d).changeCount.val = c.changeCount.val + 1 := by
  simp only [Capture.store, Fin.val_ofNat, Config.capacity]
  omega

/-- What the guard leaves: a counter below the capacity (R139). -/
theorem Capture.guardOverflow_lt (c : Capture) : c.guardOverflow.changeCount.val < 67 := by
  unfold Capture.guardOverflow
  split
  · exact (by decide : (0 : Fin (Config.capacity + 1)).val < 67)
  · have : ¬ 67 ≤ c.changeCount.val := ‹_›
    omega

theorem Capture.startFrame_lt (c : Capture) : c.startFrame.changeCount.val < 67 :=
  (by decide : (0 : Fin (Config.capacity + 1)).val < 67)

theorem Capture.guardOverflow_eq_self {c : Capture} (h : c.changeCount.val < 67) : c.guardOverflow = c := by
  rw [Capture.guardOverflow, if_neg (by simp only [Config.capacity]; omega)]

theorem Capture.guardOverflow_full {c : Capture} (h : c.changeCount.val = 67) :
    c.guardOverflow = { c with changeCount := 0, repeatCount := 0 } := by
  rw [Capture.guardOverflow, if_pos (by simp only [Config.capacity]; omega)]

/-- The entry stored is the newest one (R140). -/
theorem Capture.store_newest {c : Capture} {d : Duration} (h : c.changeCount.val < 67) :
    frameAt (c.store d).frame c.changeCount.val = d :=
  frameAt_set_self _ _ h

/-- A store leaves every other entry (R140). -/
theorem Capture.store_other {c : Capture} {d : Duration} {j : Nat} (h : j ≠ c.changeCount.val) :
    frameAt (c.store d).frame j = frameAt c.frame j :=
  frameAt_set_ne _ _ h

/-! ## The attempts -/

@[simp] theorem mem_protocolIds (p : Nat) : p ∈ protocolIds ↔ 1 ≤ p ∧ p ≤ 6 := by
  constructor
  · intro h
    simp only [protocolIds, List.mem_map, List.mem_range, Config.nProtocols] at h
    omega
  · intro h
    simp only [protocolIds, List.mem_map, List.mem_range, Config.nProtocols]
    exact ⟨p - 1, by omega, by omega⟩

/-- The first success among 1 .. n, in ascending order. -/
theorem findSome_ascending {α : Type} (f : Nat → Option α) (n : Nat) :
    (∃ p m, 1 ≤ p ∧ p ≤ n ∧ f p = some m ∧ (∀ q, 1 ≤ q → q < p → f q = none) ∧
      ((List.range n).map (· + 1)).findSome? f = some m) ∨
    ((∀ q, 1 ≤ q → q ≤ n → f q = none) ∧ ((List.range n).map (· + 1)).findSome? f = none) := by
  induction n with
  | zero => exact Or.inr ⟨by omega, rfl⟩
  | succ n ih =>
    rw [List.range_succ, List.map_append, List.findSome?_append]
    rcases ih with ⟨p, m, h1, hn, hm, hq, e⟩ | ⟨hq, e⟩
    · exact Or.inl ⟨p, m, h1, by omega, hm, hq, by rw [e]; rfl⟩
    · rw [e]
      cases hf : f (n + 1) with
      | some m => exact Or.inl ⟨n + 1, m, by omega, le_rfl, hf, fun q h1 h2 => hq q h1 (by omega), by simp [hf]⟩
      | none =>
        refine Or.inr ⟨fun q h1 h2 => ?_, by simp [hf]⟩
        rcases Nat.lt_or_eq_of_le h2 with h2 | rfl
        · exact hq q h1 (by omega)
        · exact hf

/-- The attempts, one after another: the first success is committed, with none nothing changes (R137). -/
theorem tryProtocols_cases (s : State) (cc : Nat) :
    (∃ p m, 1 ≤ p ∧ p ≤ 6 ∧ decodeAttempt s cc p = some m ∧ (∀ q, 1 ≤ q → q < p → decodeAttempt s cc q = none) ∧
      tryProtocols s cc = s.commitMessage m) ∨
    ((∀ q, 1 ≤ q → q ≤ 6 → decodeAttempt s cc q = none) ∧ tryProtocols s cc = s) := by
  rcases findSome_ascending (decodeAttempt s cc) 6 with ⟨p, m, h1, h6, hm, hq, e⟩ | ⟨hq, e⟩
  · exact Or.inl ⟨p, m, h1, h6, hm, hq, by rw [tryProtocols, show protocolIds.findSome? _ = some m from e]⟩
  · exact Or.inr ⟨hq, by rw [tryProtocols, show protocolIds.findSome? _ = none from e]⟩

/-! ## The step -/

/-- An edge that closes no long gap: steps 1, 3 and 4 (R139, R140). -/
theorem edgeStep_short {s : State} (h : (edgeDuration s).toNat ≤ 5000) :
    edgeStep s = s.setCap ((s.cap.stamp s.now).guardOverflow.store (edgeDuration s)) := by
  have hg : isLongGap (edgeDuration s) = false := by
    rw [isLongGap, decide_eq_false_iff_not]
    exact Nat.not_lt.mpr h
  simp only [edgeStep, hg, Bool.false_eq_true, if_false]
  rfl

/-- A long gap that does not match: steps 1, 2b and 4 (R136). -/
theorem edgeStep_unmatched {s : State} (h : 5000 < (edgeDuration s).toNat)
    (hm : 200 ≤ absdiff (edgeDuration s).toNat (frameAt s.cap.frame 0).toNat) :
    edgeStep s = s.setCap ((s.cap.stamp s.now).startFrame.store (edgeDuration s)) := by
  have hg : isLongGap (edgeDuration s) = true := decide_eq_true h
  have hn : isSyncMatch (edgeDuration s) (s.cap.stamp s.now) = false := by
    rw [isSyncMatch, decide_eq_false_iff_not]
    exact Nat.not_lt.mpr hm
  simp only [edgeStep, hg, edgeLongGap, State.setCap_cap, hn, Bool.false_eq_true, if_false, if_true]
  rfl

/-- A match that is not the second one: it is only counted (R135, R136). -/
theorem edgeStep_counted {s : State} (h : 5000 < (edgeDuration s).toNat)
    (hm : absdiff (edgeDuration s).toNat (frameAt s.cap.frame 0).toNat < 200) (hr : s.cap.repeatCount ≠ 1) :
    edgeStep s = s.setCap ((s.cap.stamp s.now).countMatch.startFrame.store (edgeDuration s)) := by
  have hg : isLongGap (edgeDuration s) = true := decide_eq_true h
  have hn : isSyncMatch (edgeDuration s) (s.cap.stamp s.now) = true := decide_eq_true hm
  have hc : ¬ (s.cap.stamp s.now).countMatch.repeatCount.toNat = Config.repeatTrigger := by
    intro e
    exact hr (by revert e; simp only [Capture.stamp, Capture.countMatch]; generalize s.cap.repeatCount = x; revert x; decide)
  simp only [edgeStep, hg, edgeLongGap, edgeMatch, State.setCap_cap, hn, hc, if_false, if_true]
  rfl

/-- The second match: the attempts on the frame that ends, `repeat_count` cleared either way, then the new frame (R137,
R138). -/
theorem edgeStep_second {s : State} (h : 5000 < (edgeDuration s).toNat)
    (hm : absdiff (edgeDuration s).toNat (frameAt s.cap.frame 0).toNat < 200) (hr : s.cap.repeatCount = 1) :
    edgeStep s = (tryProtocols (s.setCap (s.cap.stamp s.now).countMatch) (s.cap.changeCount.val - 1)).setCap
      ((s.cap.stamp s.now).countMatch.clearRepeat.startFrame.store (edgeDuration s)) := by
  have hg : isLongGap (edgeDuration s) = true := decide_eq_true h
  have hn : isSyncMatch (edgeDuration s) (s.cap.stamp s.now) = true := decide_eq_true hm
  have hc : (s.cap.stamp s.now).countMatch.repeatCount.toNat = Config.repeatTrigger := by
    simp only [Capture.stamp, Capture.countMatch, hr]
    decide
  have ht : (tryProtocols ((s.setCap (s.cap.stamp s.now)).setCap (s.cap.stamp s.now).countMatch)
      (s.cap.stamp s.now).countMatch.changeCount.val).cap = (s.cap.stamp s.now).countMatch := by
    rcases tryProtocols_cases ((s.setCap (s.cap.stamp s.now)).setCap (s.cap.stamp s.now).countMatch)
      (s.cap.stamp s.now).countMatch.changeCount.val with ⟨_, _, _, _, _, _, e⟩ | ⟨_, e⟩ <;> rw [e] <;> rfl
  simp only [edgeStep, hg, edgeLongGap, edgeMatch, State.setCap_cap, hn, hc, if_true, edgeStore]
  rw [ht]
  rfl

/-- What an attempt reads does not change with the counters of the capture state or the time of the latest edge. -/
theorem decodeAttempt_counters (s : State) (cc p : Nat) :
    decodeAttempt (s.setCap (s.cap.stamp s.now).countMatch) cc p = decodeAttempt s cc p := rfl

/-- What an attempt reads: the catalog, the ring, the tolerance and the counter (R155). -/
theorem decodeAttempt_congr {s s' : State} (hcap : s'.cap = s.cap) (hcat : s'.catalog = s.catalog) (hnow : s'.now = s.now)
    (htol : s'.cfg.tolerancePercent = s.cfg.tolerancePercent) (cc p : Nat) :
    decodeAttempt s' cc p = decodeAttempt s cc p := by
  rw [decodeAttempt, decodeAttempt, hcap, hcat, hnow, htol]

/-- Everything an edge can change, and all it reads: two states that agree on the capture state, the catalog, the tolerance
and the counter take the same capture state, and the same message if they take one (R20, R155, R162). -/
theorem edgeStep_effect {s s' : State} (hcap : s'.cap = s.cap) (hcat : s'.catalog = s.catalog) (hnow : s'.now = s.now)
    (htol : s'.cfg.tolerancePercent = s.cfg.tolerancePercent) :
    (∃ c, edgeStep s = s.setCap c ∧ edgeStep s' = s'.setCap c) ∨
      ∃ c m, edgeStep s = (s.setCap c).commitMessage m ∧ edgeStep s' = (s'.setCap c).commitMessage m ∧ m.Decoded ∧
        m.timestamp = s.now := by
  have hd : edgeDuration s' = edgeDuration s := by rw [edgeDuration, edgeDuration, hnow, hcap]
  by_cases h : (edgeDuration s).toNat ≤ 5000
  · refine Or.inl ⟨_, edgeStep_short h, ?_⟩
    rw [edgeStep_short (by rw [hd]; exact h), hd, hcap, hnow]
  · have h' : 5000 < (edgeDuration s).toNat := by omega
    by_cases hm : 200 ≤ absdiff (edgeDuration s).toNat (frameAt s.cap.frame 0).toNat
    · refine Or.inl ⟨_, edgeStep_unmatched h' hm, ?_⟩
      rw [edgeStep_unmatched (by rw [hd]; exact h') (by rw [hd, hcap]; exact hm), hd, hcap, hnow]
    · have hm' : absdiff (edgeDuration s).toNat (frameAt s.cap.frame 0).toNat < 200 := by omega
      by_cases hr : s.cap.repeatCount = 1
      · have hs := edgeStep_second h' hm' hr
        have hs' := edgeStep_second (s := s') (by rw [hd]; exact h') (by rw [hd, hcap]; exact hm') (by rw [hcap]; exact hr)
        rw [hcap, hnow, hd] at hs'
        have hc := decodeAttempt_congr (s := s.setCap (s.cap.stamp s.now).countMatch)
          (s' := s'.setCap (s.cap.stamp s.now).countMatch) rfl hcat hnow htol
        have he : tryProtocols (s'.setCap (s.cap.stamp s.now).countMatch) (s.cap.changeCount.val - 1) =
            match protocolIds.findSome?
              (decodeAttempt (s.setCap (s.cap.stamp s.now).countMatch) (s.cap.changeCount.val - 1)) with
            | some m => (s'.setCap (s.cap.stamp s.now).countMatch).commitMessage m
            | none => s'.setCap (s.cap.stamp s.now).countMatch := by
          have e : decodeAttempt (s'.setCap (s.cap.stamp s.now).countMatch) (s.cap.changeCount.val - 1) =
              decodeAttempt (s.setCap (s.cap.stamp s.now).countMatch) (s.cap.changeCount.val - 1) := funext (hc _)
          cases hf : protocolIds.findSome?
              (decodeAttempt (s.setCap (s.cap.stamp s.now).countMatch) (s.cap.changeCount.val - 1)) <;>
            simp only [tryProtocols, e, hf]
        rcases findSome_ascending
          (decodeAttempt (s.setCap (s.cap.stamp s.now).countMatch) (s.cap.changeCount.val - 1)) 6 with
          ⟨p, m, -, -, hdec, -, e⟩ | ⟨-, e⟩
        · right
          have e' : protocolIds.findSome? _ = some m := e
          rw [he, e'] at hs'
          rw [tryProtocols, e'] at hs
          rw [decodeAttempt_counters] at hdec
          refine ⟨_, m, hs, hs', decodeAttempt_decoded hdec ?_⟩
          have := s.cap.changeCount.isLt
          omega
        · left
          have e' : protocolIds.findSome? _ = none := e
          rw [he, e'] at hs'
          rw [tryProtocols, e'] at hs
          exact ⟨_, hs, hs'⟩
      · refine Or.inl ⟨_, edgeStep_counted h' hm' hr, ?_⟩
        rw [edgeStep_counted (by rw [hd]; exact h') (by rw [hd, hcap]; exact hm') (by rw [hcap]; exact hr), hd, hcap, hnow]

/-- The capture state after an edge, whatever the edge was (R131, R140, R143). -/
theorem edgeStep_cap (s : State) :
    ∃ c : Capture, (edgeStep s).cap = c.store (edgeDuration s) ∧ c.changeCount.val < 67 ∧ c.lastEdgeTimestamp = s.now ∧
      c.frame = s.cap.frame ∧
      (s.cap.repeatCount.toNat ≤ 1 → c.repeatCount.toNat ≤ 1) := by
  by_cases h : (edgeDuration s).toNat ≤ 5000
  · rw [edgeStep_short h]
    refine ⟨_, rfl, Capture.guardOverflow_lt _, ?_, ?_, ?_⟩
    · unfold Capture.guardOverflow
      split <;> rfl
    · unfold Capture.guardOverflow
      split <;> rfl
    · intro hr
      unfold Capture.guardOverflow
      split
      · exact Nat.zero_le _
      · exact hr
  · by_cases hm : 200 ≤ absdiff (edgeDuration s).toNat (frameAt s.cap.frame 0).toNat
    · rw [edgeStep_unmatched (by omega) hm]
      exact ⟨_, rfl, Capture.startFrame_lt _, rfl, rfl, id⟩
    · by_cases hr : s.cap.repeatCount = 1
      · rw [edgeStep_second (by omega) (by omega) hr]
        exact ⟨_, rfl, Capture.startFrame_lt _, rfl, rfl, fun _ => (by decide : (0 : BitVec 2).toNat ≤ 1)⟩
      · rw [edgeStep_counted (by omega) (by omega) hr]
        refine ⟨_, rfl, Capture.startFrame_lt _, rfl, rfl, ?_⟩
        simp only [Capture.startFrame, Capture.countMatch, Capture.stamp]
        revert hr
        generalize s.cap.repeatCount = x
        revert x
        decide

end Sys2Proof.Machine
end

