-- ==== Sys2Proof/Laws/Encoding.lean ====
section
/-! SUPPORT. The fields of an encoded command word, and a word from its fields (R87). -/

namespace Sys2Proof

section
variable (op : BitVec 4) (pv : Bool) (proto : BitVec 8) (uv : Bool) (unit : BitVec 32) (lv : Bool)
    (len : BitVec 8) (code : BitVec 64)

theorem opField_commandWord : opField (commandWord op pv proto uv unit lv len code) = op := by
  unfold opField commandWord
  iterate 8 rw [BitVec.extractLsb'_append_eq_of_le (by omega)]
  exact BitVec.extractLsb'_eq_self

theorem rsvField_commandWord : rsvField (commandWord op pv proto uv unit lv len code) = 0 := by
  unfold rsvField commandWord
  iterate 7 rw [BitVec.extractLsb'_append_eq_of_le (by omega)]
  rw [BitVec.extractLsb'_append_eq_of_add_le (by omega)]
  exact BitVec.extractLsb'_eq_self

theorem protoField_commandWord : protoField (commandWord op pv proto uv unit lv len code) = proto := by
  unfold protoField commandWord
  iterate 5 rw [BitVec.extractLsb'_append_eq_of_le (by omega)]
  rw [BitVec.extractLsb'_append_eq_of_add_le (by omega)]
  exact BitVec.extractLsb'_eq_self

theorem unitField_commandWord : unitField (commandWord op pv proto uv unit lv len code) = unit := by
  unfold unitField commandWord
  iterate 3 rw [BitVec.extractLsb'_append_eq_of_le (by omega)]
  rw [BitVec.extractLsb'_append_eq_of_add_le (by omega)]
  exact BitVec.extractLsb'_eq_self

theorem lenField_commandWord : lenField (commandWord op pv proto uv unit lv len code) = len := by
  unfold lenField commandWord
  rw [BitVec.extractLsb'_append_eq_of_le (by omega), BitVec.extractLsb'_append_eq_of_add_le (by omega)]
  exact BitVec.extractLsb'_eq_self

theorem codeField_commandWord : codeField (commandWord op pv proto uv unit lv len code) = code := by
  unfold codeField commandWord
  rw [BitVec.extractLsb'_append_eq_of_add_le (by omega)]
  exact BitVec.extractLsb'_eq_self

theorem pvField_commandWord : pvField (commandWord op pv proto uv unit lv len code) = pv := by
  unfold pvField commandWord
  iterate 6 rw [BitVec.getLsbD_append, if_neg (by omega)]
  rw [BitVec.getLsbD_append, if_pos (by omega)]
  simp

theorem uvField_commandWord : uvField (commandWord op pv proto uv unit lv len code) = uv := by
  unfold uvField commandWord
  iterate 4 rw [BitVec.getLsbD_append, if_neg (by omega)]
  rw [BitVec.getLsbD_append, if_pos (by omega)]
  simp

theorem lvField_commandWord : lvField (commandWord op pv proto uv unit lv len code) = lv := by
  unfold lvField commandWord
  iterate 2 rw [BitVec.getLsbD_append, if_neg (by omega)]
  rw [BitVec.getLsbD_append, if_pos (by omega)]
  simp

theorem aboveIdx_commandWord : aboveIdx (commandWord op false 0#8 false 0#32 false len code) = 0 := by
  have zeros : ∀ o : BitVec 4, BitVec.extractLsb' 0 52 (o ++ (0 : BitVec 9) ++ BitVec.ofBool false ++ (0 : BitVec 8) ++
      BitVec.ofBool false ++ (0 : BitVec 32) ++ BitVec.ofBool false) = 0 := by decide
  unfold aboveIdx commandWord
  rw [BitVec.extractLsb'_append_eq_of_le (by omega), BitVec.extractLsb'_append_eq_of_le (by omega)]
  exact zeros op

theorem aboveProto_commandWord : aboveProto (commandWord op false proto uv unit lv len code) = 0 := by
  have zeros : ∀ o : BitVec 4, BitVec.extractLsb' 0 10 (o ++ (0 : BitVec 9) ++ BitVec.ofBool false) = 0 := by decide
  unfold aboveProto commandWord
  iterate 6 rw [BitVec.extractLsb'_append_eq_of_le (by omega)]
  exact zeros op

theorem belowOp_commandWord : belowOp (commandWord op false 0#8 false 0#32 false 0#8 0#64) = 0 := by
  revert op; decide

theorem belowProto_commandWord : belowProto (commandWord 5#4 false proto false 0#32 false 0#8 0#64) = 0 := by
  revert proto; decide

end

/-- A word whose reserved field is 0 is the word of its fields. -/
theorem commandWord_fields (w : CommandWord) (h : rsvField w = 0) :
    commandWord (opField w) (pvField w) (protoField w) (uvField w) (unitField w) (lvField w) (lenField w)
      (codeField w) = w := by
  have bit : ∀ k : Nat, BitVec.ofBool (w.getLsbD k) = w.extractLsb' k 1 := by
    intro k
    apply BitVec.eq_of_getLsbD_eq
    intro i hi
    obtain rfl : i = 0 := by omega
    simp
  unfold commandWord pvField uvField lvField
  rw [bit, bit, bit, ← h]
  unfold opField rsvField protoField unitField lenField codeField
  iterate 8 rw [BitVec.extractLsb'_append_extractLsb'_eq_extractLsb' (by rfl)]
  exact BitVec.extractLsb'_eq_self

/-- A field that a wider field covers is 0 when the wider one is. -/
theorem extractLsb'_zero_of_covered {w : CommandWord} {start len start' len' : Nat}
    (h : w.extractLsb' start len = 0) (h1 : start ≤ start') (h2 : start' + len' ≤ start + len) :
    w.extractLsb' start' len' = 0 := by
  apply BitVec.eq_of_getLsbD_eq
  intro i hi
  have hb := congrArg (fun v => BitVec.getLsbD v (start' - start + i)) h
  simp only [BitVec.getLsbD_extractLsb', BitVec.ofNat_eq_ofNat, BitVec.getLsbD_zero] at hb
  have e : start + (start' - start + i) = start' + i := by omega
  have l : start' - start + i < len := by omega
  rw [e] at hb
  simpa [hi, l] using hb

/-- A bit that a field covers is 0 when the field is. -/
theorem getLsbD_zero_of_covered {w : CommandWord} {start len k : Nat} (h : w.extractLsb' start len = 0)
    (h1 : start ≤ k) (h2 : k < start + len) : w.getLsbD k = false := by
  have hb := congrArg (fun v => BitVec.getLsbD v (k - start)) h
  simp only [BitVec.getLsbD_extractLsb', BitVec.ofNat_eq_ofNat, BitVec.getLsbD_zero] at hb
  have e : start + (k - start) = k := by omega
  have l : k - start < len := by omega
  rw [e] at hb
  simpa [l] using hb

end Sys2Proof
end

