-- ==== Sys2Proof/Laws/Transmit.lean ====
section
/-! SUPPORT. What SEND and the transmitter's steps do (44_transmitter.md): one lemma for each that says everything it can do
when it answers a next state. -/

namespace Sys2Proof.Machine

/-! ## SEND -/

/-- Ratios fit a byte, so a delay fits `pending_delay_us` (R45). -/
theorem delay_lt (ρ : Ratio) (u : PulseUnit) : ρ.toNat * u.toNat < 2 ^ 40 := by
  have h1 := ρ.toNat_le
  have h2 := pulseUnit_lt u
  nlinarith

/-- The doubled string of `l` bits fits 2l bits (R203). -/
theorem nexaDouble_lt (code l : Nat) : nexaDouble code l < 4 ^ l := by
  induction l with
  | zero => simp [nexaDouble]
  | succ l ih =>
    rw [nexaDouble, pow_succ]
    split <;> omega

/-- The bits of the doubled string: at 2j+1 bit j, at 2j its complement, and nothing above (R203). -/
theorem nexaDouble_testBit (code l i : Nat) :
    (nexaDouble code l).testBit i =
      (decide (i < 2 * l) && (if i % 2 = 1 then code.testBit (i / 2) else !code.testBit (i / 2))) := by
  induction l with
  | zero => simp [nexaDouble]
  | succ l ih =>
    have hlt : nexaDouble code l < 2 ^ (2 * l) := by
      rw [pow_mul]
      exact nexaDouble_lt code l
    have e : nexaDouble code (l + 1) = 2 ^ (2 * l) * (if code.testBit l then 2 else 1) + nexaDouble code l := by
      rw [nexaDouble, pow_mul]
      ring
    rw [e, Nat.testBit_two_pow_mul_add _ hlt]
    split
    · rw [ih]
      have h1 : decide (i < 2 * l) = true := by simpa using ‹i < 2 * l›
      have h2 : decide (i < 2 * (l + 1)) = true := by
        rw [decide_eq_true_eq]
        omega
      rw [h1, h2]
    · rename_i hi
      have hcase : i = 2 * l ∨ i = 2 * l + 1 ∨ 2 * l + 2 ≤ i := by omega
      rcases hcase with rfl | rfl | h
      · have h2 : 2 * l / 2 = l := by omega
        have h3 : 2 * l % 2 ≠ 1 := by omega
        rw [h2, if_neg h3, show 2 * l - 2 * l = 0 by omega]
        cases code.testBit l <;> simp
      · have h2 : (2 * l + 1) / 2 = l := by omega
        have h3 : (2 * l + 1) % 2 = 1 := by omega
        have h4 : decide (2 * l + 1 < 2 * (l + 1)) = true := by
          rw [decide_eq_true_eq]
          omega
        rw [h2, if_pos h3, h4, show 2 * l + 1 - 2 * l = 1 by omega]
        cases code.testBit l <;> decide
      · have h2 : decide (i < 2 * (l + 1)) = false := by
          rw [decide_eq_false_iff_not]
          omega
        rw [h2, Bool.false_and]
        apply Nat.testBit_lt_two_pow
        have : 2 ^ 2 ≤ 2 ^ (i - 2 * l) := Nat.pow_le_pow_right (by omega) (by omega)
        split <;> omega

/-- Everything that is true of a SEND whose checks pass (R197 to R204). -/
theorem resolveSend_ok {cfg : HostConfig} {cat : Vector Protocol Config.nProtocols} {a : SendArgs} {x : Accepted}
    (h : resolveSend cfg cat a = .ok x) :
    cfg.txEn = true ∧ x.proto = effectiveProto cfg a ∧
    ∃ r l, protocolAt cat x.proto.toNat = some r ∧ x.unit = effectiveUnit cfg r a ∧ x.unit.toNat ≠ 0 ∧
      l = effectiveLen x.proto.toNat a ∧ 1 ≤ l ∧ l ≤ 64 ∧ a.code.toNat < 2 ^ l ∧
      (x.proto.toNat = 6 → l ≤ 32 ∧ x.onAirLen = 2 * l ∧ x.onAirBits = nexaDouble a.code.toNat l) ∧
      (x.proto.toNat ≠ 6 → x.onAirLen = l ∧ x.onAirBits = a.code.toNat) := by
  unfold resolveSend at h
  split at h
  · cases h
  · rename_i hen
    dsimp only at h
    split at h
    · cases h
    · rename_i r hr
      split at h
      · cases h
      · rename_i hargs
        simp only [argRangeFails, Bool.or_eq_true, decide_eq_true_eq, Bool.and_eq_true, not_or, not_and, not_lt,
          not_le, Config.maxLen, Config.nexaProto, Config.maxNexaLen] at hargs
        obtain ⟨⟨⟨⟨hu, hl1⟩, hl64⟩, hl32⟩, hcode⟩ := hargs
        simp only [Config.nexaProto] at h
        split at h
        · rename_i hp
          obtain rfl := by simpa using h.symm
          exact ⟨by simpa using hen, rfl, r, _, hr, rfl, hu, rfl, hl1, hl64, hcode,
            fun _ => ⟨hl32 hp, rfl, rfl⟩, fun hn => absurd hp hn⟩
        · rename_i hp
          obtain rfl := by simpa using h.symm
          exact ⟨by simpa using hen, rfl, r, _, hr, rfl, hu, rfl, hl1, hl64, hcode,
            fun hn => absurd hn hp, fun _ => ⟨rfl, rfl⟩⟩

/-- SEND answers in one of three ways: it waits, it fails, or it loads the transmitter (R195, R196, R205). -/
theorem execSend_cases (a : SendArgs) (s : State) :
    ((s.tx.state ≠ .idle ∨ s.waiting ≠ []) ∧ execSend a s = .next (s.setWaiting (s.waiting ++ [a])).silent) ∨
    (s.tx.state = .idle ∧ s.waiting = [] ∧
      ((∃ r, resolveSend s.cfg s.catalog a = .error r ∧ execSend a s = .next (s.failSend r)) ∨
        ∃ x, resolveSend s.cfg s.catalog a = .ok x ∧
          execSend a s = .next (s.setTx (s.tx.load x s.cfg.txRepeat s.now)).silent)) := by
  unfold execSend
  by_cases h : s.tx.state = .idle ∧ s.waiting = []
  · right
    rw [if_pos h]
    refine ⟨h.1, h.2, ?_⟩
    unfold acceptSend
    cases hr : resolveSend s.cfg s.catalog a with
    | error r => exact Or.inl ⟨r, rfl, rfl⟩
    | ok x => exact Or.inr ⟨x, rfl, rfl⟩
  · left
    rw [if_neg h]
    exact ⟨by tauto, rfl⟩

/-! ## The steps -/

/-- The guard of TX.RISE and TX.FALL, spelled out (R213, R214). -/
theorem phaseOver_iff (s : State) :
    phaseOver s = true ↔ s.tx.pendingDelay.toNat ≤ (tsub s.now s.tx.segmentStart).toNat := by
  rw [phaseOver, decide_eq_true_eq]
  rfl

/-- The guard of TX.DONE, spelled out (R215). -/
theorem quietOver_iff (s : State) : quietOver s = true ↔ 500000 ≤ (tsub s.now s.tx.quietStart).toNat := by
  rw [quietOver, decide_eq_true_eq]
  rfl

/-- The guard holds after the wait (R216). -/
@[simp] theorem phaseOver_wait (s : State) : phaseOver (s.later (phaseWait s)) = true := by
  rw [phaseOver, decide_eq_true_eq]
  exact (first_instant s.now s.tx.segmentStart s.tx.pendingDelay.toNat (by have := delayReg_lt s.tx.pendingDelay; omega)).1

/-- What the current segment is. -/
theorem currentSegment_ok {s : State} {k : SegKind} {r : Protocol} :
    currentSegment s = .ok (k, r) ↔ segKind s.tx = some k ∧ protocolAt s.catalog s.tx.protocolId.toNat = some r := by
  unfold currentSegment
  cases segKind s.tx with
  | none => simp
  | some k' =>
    cases protocolAt s.catalog s.tx.protocolId.toNat with
    | none => simp
    | some r' => simp

/-- Everything TX.RISE can do (R213). -/
theorem txRise_next {st : TxState} {s t : State} :
    txRise st s = .next t ↔
      s.tx.state = st ∧ s.tx.pin = false ∧ phaseOver s = true ∧
        ∃ k r, segKind s.tx = some k ∧ protocolAt s.catalog s.tx.protocolId.toNat = some r ∧
          t = (s.setTx (s.tx.rise (highRatio r k * s.tx.pulseUnitUs.toNat) s.now)).silent := by
  unfold txRise
  split
  · rename_i h
    cases hc : currentSegment s with
    | error f =>
      have hno : ∀ k r, ¬ (segKind s.tx = some k ∧ protocolAt s.catalog s.tx.protocolId.toNat = some r) := by
        intro k r hkr
        rw [currentSegment_ok.mpr hkr] at hc
        cases hc
      simp only [reduceCtorEq, false_iff]
      rintro ⟨_, _, _, k, r, h1, h2, _⟩
      exact hno k r ⟨h1, h2⟩
    | ok kr =>
      obtain ⟨k, r⟩ := kr
      obtain ⟨h1, h2⟩ := currentSegment_ok.mp hc
      simp only [Host.Outcome.next.injEq, h, h1, h2, true_and, Option.some.injEq]
      constructor
      · rintro rfl
        exact ⟨k, r, rfl, rfl, rfl⟩
      · rintro ⟨_, _, rfl, rfl, rfl⟩
        rfl
  · rename_i h
    simp only [reduceCtorEq, false_iff]
    rintro ⟨h1, h2, h3, -⟩
    exact h ⟨h1, h2, h3⟩

/-- Everything TX.FALL can do (R214). -/
theorem txFall_next {st : TxState} {s t : State} :
    txFall st s = .next t ↔
      s.tx.state = st ∧ s.tx.pin = true ∧ phaseOver s = true ∧
        ∃ k r, segKind s.tx = some k ∧ protocolAt s.catalog s.tx.protocolId.toNat = some r ∧
          t = (s.setTx ((s.tx.drop (lowRatio r k * s.tx.pulseUnitUs.toNat) s.now).advance s.now)).silent := by
  unfold txFall
  split
  · rename_i h
    cases hc : currentSegment s with
    | error f =>
      have hno : ∀ k r, ¬ (segKind s.tx = some k ∧ protocolAt s.catalog s.tx.protocolId.toNat = some r) := by
        intro k r hkr
        rw [currentSegment_ok.mpr hkr] at hc
        cases hc
      simp only [reduceCtorEq, false_iff]
      rintro ⟨_, _, _, k, r, h1, h2, _⟩
      exact hno k r ⟨h1, h2⟩
    | ok kr =>
      obtain ⟨k, r⟩ := kr
      obtain ⟨h1, h2⟩ := currentSegment_ok.mp hc
      simp only [Host.Outcome.next.injEq, h, h1, h2, true_and, Option.some.injEq]
      constructor
      · rintro rfl
        exact ⟨k, r, rfl, rfl, rfl⟩
      · rintro ⟨_, _, rfl, rfl, rfl⟩
        rfl
  · rename_i h
    simp only [reduceCtorEq, false_iff]
    rintro ⟨h1, h2, h3, -⟩
    exact h ⟨h1, h2, h3⟩

/-- Everything TX.DONE can do (R215). -/
theorem execTxDone_next {s t : State} :
    execTxDone s = .next t ↔
      s.tx.state = .quiet ∧ s.tx.pin = false ∧ quietOver s = true ∧
        t = (s.setTx { s.tx with state := .idle, result := .ok }).respond (.send .ok) := by
  unfold execTxDone
  split
  · rename_i h
    simp only [Host.Outcome.next.injEq, h, true_and]
    exact eq_comm
  · rename_i h
    simp only [reduceCtorEq, false_iff]
    rintro ⟨h1, h2, h3, -⟩
    exact h ⟨h1, h2, h3⟩

/-- Everything a segment can do: one TX.RISE, then one TX.FALL (R85, R208 to R210). -/
theorem segment_next {k : SegKind} {st : TxState} {s t : State} :
    segment k st s = .next t ↔
      segKind s.tx = some k ∧ ∃ u, txRise st (s.later (phaseWait s)) = .next u ∧
        txFall st (u.later (phaseWait u)) = .next t := by
  unfold segment
  split
  · rename_i h
    rw [andThen_next]
    exact ⟨fun e => ⟨h, e⟩, fun e => e.2⟩
  · rename_i h
    simp [h]

/-- The sequencer after a segment keeps what SEND latched, the pin and the cursor (R214). -/
theorem Transmitter.advance_keeps (t : Transmitter) (now : Time) :
    t.advance now = { t with
      state := (t.advance now).state, bitIdx := (t.advance now).bitIdx, passLeft := (t.advance now).passLeft,
      quietStart := (t.advance now).quietStart } := by
  unfold Transmitter.advance
  split <;> first | rfl | (split <;> rfl)

end Sys2Proof.Machine
end

