-- ==== Sys2Proof/Laws/Frame.lean ====
section
/-! SUPPORT. What each operation leaves alone when it answers a next state (R20): one equation for each group. -/

namespace Sys2Proof.Machine

/-- A transmitter step writes the transmitter and the response port (R213 to R215). -/
theorem txRise_frame {st : TxState} {s t : State} (h : txRise st s = .next t) : t = (s.setTx t.tx).silent := by
  obtain ⟨-, -, -, k, r, -, -, rfl⟩ := txRise_next.mp h
  rfl

theorem txFall_frame {st : TxState} {s t : State} (h : txFall st s = .next t) : t = (s.setTx t.tx).silent := by
  obtain ⟨-, -, -, k, r, -, -, rfl⟩ := txFall_next.mp h
  rfl

theorem execTxDone_frame {s t : State} (h : execTxDone s = .next t) : t = (s.setTx t.tx).respond (.send .ok) := by
  obtain ⟨-, -, -, rfl⟩ := execTxDone_next.mp h
  rfl

/-- A segment writes the transmitter, the response port and the counter (R208 to R210; log entry 8). -/
theorem segment_frame {k : SegKind} {st : TxState} {s t : State} (h : segment k st s = .next t) :
    t = ((s.setNow t.now).setTx t.tx).silent := by
  obtain ⟨-, u, hu, ht⟩ := segment_next.mp h
  rw [txFall_frame ht, txRise_frame hu]
  rfl

/-- SEND writes the transmitter, the waiting commands and the response port (R195, R196). -/
theorem execSend_frame {a : SendArgs} {s t : State} (h : execSend a s = .next t) :
    t = { s with tx := t.tx, waiting := t.waiting, response := t.response } := by
  rcases execSend_cases a s with ⟨-, e⟩ | ⟨-, -, ⟨r, -, e⟩ | ⟨x, -, e⟩⟩ <;>
    (rw [e] at h
     obtain rfl := by simpa using h.symm
     rfl)

/-- EDGE writes the capture and message state (R130, R132); its messages are decodes of its own instant. -/
theorem execEdge_frame {s t : State} (h : execEdge s = .next t) :
    (∃ c, t = (s.setCap c).silent) ∨
      ∃ c m, t = ((s.setCap c).commitMessage m).silent ∧ m.Decoded ∧ m.timestamp = s.now := by
  unfold execEdge at h
  split at h
  · obtain rfl := by simpa using h.symm
    rcases edgeStep_effect (s := s) (s' := s) rfl rfl rfl rfl with ⟨c, e, -⟩ | ⟨c, m, e, -, hm⟩
    · exact Or.inl ⟨c, by rw [e]⟩
    · exact Or.inr ⟨c, m, by rw [e], hm⟩
  · obtain rfl := by simpa using h.symm
    exact Or.inl ⟨s.cap, rfl⟩

/-- DECODE writes message state, and only with a decode of its own instant (R155). -/
theorem execDecodeTry_frame {p : ProtoId} {cc : Fin Config.capacity} {s t : State} (h : execDecodeTry p cc s = .next t) :
    t = s.respond (.decoded false) ∨
      ∃ m, t = (s.commitMessage m).respond (.decoded true) ∧ m.Decoded ∧ m.timestamp = s.now := by
  unfold execDecodeTry at h
  split at h
  · cases h
  · rename_i r hr
    split at h
    · rename_i m hm
      obtain rfl := by simpa using h.symm
      exact Or.inr ⟨m, rfl, decodeFrame_decoded hm (isProtocolId_of_protocolAt hr) (Nat.le_of_lt cc.isLt)⟩
    · exact Or.inl (by simpa using h.symm)

/-- Taking a waiting SEND writes the transmitter, the waiting commands and the response port (R196). -/
theorem takeWaiting_frame (s : State) :
    takeWaiting s = { s with
      tx := (takeWaiting s).tx, waiting := (takeWaiting s).waiting, response := (takeWaiting s).response } := by
  unfold takeWaiting
  split
  · rfl
  · split
    · unfold acceptSend
      split <;> rfl
    · rfl

end Sys2Proof.Machine
end

