-- ==== Sys2Proof/Laws/Invariant.lean ====
section
/-! SUPPORT. The parts of the invariant of Safety.lean that the transmitter's operations keep (R224), and where the current
segment exists. -/

namespace Sys2Proof.Machine

/-- A segment is selected only in an active state (R213). -/
theorem active_of_segKind {t : Transmitter} {k : SegKind} (h : segKind t = some k) : t.state.active = true := by
  unfold segKind at h
  cases hs : t.state with
  | leadSync => rfl
  | bits => rfl
  | trailSync => rfl
  | idle => simp [hs] at h
  | quiet => simp [hs] at h

/-- In an active state of the invariant a segment is selected (R224). -/
theorem segKind_of_ok {t : Transmitter} (h : t.Ok) (ha : t.state.active = true) : ∃ k, segKind t = some k := by
  unfold segKind
  split
  · exact ⟨_, rfl⟩
  · exact ⟨_, rfl⟩
  · rename_i e
    rw [currentBit, if_pos (h.bit_idx e)]
    exact ⟨_, rfl⟩
  · rename_i e
    rw [e] at ha
    cases ha
  · rename_i e
    rw [e] at ha
    cases ha

/-- In an active state of the invariant the current segment and its record exist (R124, R224). -/
theorem currentSegment_of_ok {s : State} (h : s.tx.Ok) (ha : s.tx.state.active = true) :
    ∃ k r, currentSegment s = .ok (k, r) := by
  obtain ⟨k, hk⟩ := segKind_of_ok h ha
  obtain ⟨r, hr⟩ := protocolAt_isSome (c := s.catalog) (h.proto ha)
  exact ⟨k, r, currentSegment_ok.mpr ⟨hk, hr⟩⟩

/-- SEND loads a transmitter of the invariant (R197 to R204). -/
theorem Transmitter.load_ok {cfg : HostConfig} {cat : Vector Protocol Config.nProtocols} {a : SendArgs} {x : Accepted}
    {t : Transmitter} (hx : resolveSend cfg cat a = .ok x) (h : t.Ok) (hi : t.state = .idle) (passes : PassCount)
    (now : Time) : (t.load x passes now).Ok := by
  obtain ⟨-, -, r, l, hr, -, hu, -, h1, h64, hc, k6, kn⟩ := resolveSend_ok hx
  have hp : t.pin = false := by
    cases hp : t.pin with
    | false => rfl
    | true =>
      have := h.pin_active hp
      rw [hi] at this
      cases this
  have hact : (t.load x passes now).state.active = true → passes ≠ 0 := by
    rintro ha rfl
    exact Bool.noConfusion (show false = true from ha)
  have hlen : (t.load x passes now).bitLength.toNat = x.onAirLen ∧ 1 ≤ x.onAirLen ∧ x.onAirLen ≤ 64 := by
    have e : 1 ≤ x.onAirLen ∧ x.onAirLen ≤ 64 := by
      by_cases h6 : x.proto.toNat = 6
      · have := k6 h6
        omega
      · have := kn h6
        omega
    refine ⟨?_, e⟩
    simp only [Transmitter.load, BitVec.toNat_ofNat, Config.bitIdxW_eq]
    omega
  have hbits : x.onAirBits < 2 ^ x.onAirLen := by
    by_cases h6 : x.proto.toNat = 6
    · obtain ⟨-, e1, e2⟩ := k6 h6
      rw [e1, e2, pow_mul]
      exact nexaDouble_lt _ _
    · obtain ⟨e1, e2⟩ := kn h6
      rw [e1, e2]
      exact hc
  refine ⟨?_, ?_, ?_, ?_, ?_, ?_, ?_, ?_, ?_⟩
  · intro e
    rw [show (t.load x passes now).pin = t.pin from rfl, hp] at e
    cases e
  · exact fun _ => isProtocolId_of_protocolAt hr
  · exact fun _ => Nat.one_le_iff_ne_zero.mpr hu
  · intro ha
    refine Nat.one_le_iff_ne_zero.mpr fun e => hact ha ?_
    exact BitVec.eq_of_toNat_eq e
  · intro _
    rw [hlen.1]
    exact hlen.2.1
  · rw [hlen.1]
    exact hlen.2.2
  · intro _
    rw [hlen.1]
    exact hlen.2.1
  · intro e
    by_contra h6
    simp only [Transmitter.load, Config.nexaProto] at e h6
    rw [if_neg h6] at e
    split at e <;> cases e
  · rw [hlen.1]
    have : (t.load x passes now).bits.toNat = x.onAirBits % 2 ^ 64 := by simp [Transmitter.load]
    rw [this]
    exact lt_of_le_of_lt (Nat.mod_le _ _) hbits

/-- TX.RISE keeps the invariant (R213). -/
theorem Transmitter.rise_ok {t : Transmitter} (h : t.Ok) (ha : t.state.active = true) (high : Nat) (now : Time) :
    (t.rise high now).Ok :=
  ⟨fun _ => ha, h.proto, h.unit, h.passes, h.length_pos, h.length_le, h.bit_idx, h.lead, h.bits_lt⟩

/-- TX.FALL keeps the invariant (R207, R214). -/
theorem Transmitter.fall_ok {t : Transmitter} (h : t.Ok) (ha : t.state.active = true) (low : Nat) (now : Time) :
    ((t.drop low now).advance now).Ok := by
  have hp := h.proto ha
  have hu := h.unit ha
  have hl := h.length_pos ha
  have hps := h.passes ha
  have h64 : t.bitLength.toNat ≤ 64 := h.length_le
  cases hst : t.state with
  | idle =>
    rw [hst] at ha
    cases ha
  | quiet =>
    rw [hst] at ha
    cases ha
  | leadSync =>
    have e : (t.drop low now).advance now = { t.drop low now with state := .bits, bitIdx := 0 } := by
      simp only [Transmitter.advance, Transmitter.drop, hst]
    rw [e]
    exact ⟨fun x => Bool.noConfusion x, fun _ => hp, fun _ => hu, fun _ => hps, fun _ => hl, h.length_le, fun _ => hl,
      fun x => TxState.noConfusion x, h.bits_lt⟩
  | bits =>
    have hidx := h.bit_idx hst
    have e1 : (t.bitIdx + 1).toNat = t.bitIdx.toNat + 1 := by
      rw [BitVec.toNat_add]
      simp only [BitVec.ofNat_eq_ofNat, BitVec.toNat_ofNat, Config.bitIdxW_eq]
      omega
    by_cases hc : t.bitIdx + 1 = t.bitLength
    · have e : (t.drop low now).advance now = { t.drop low now with bitIdx := t.bitIdx + 1, state := .trailSync } := by
        simp only [Transmitter.advance, Transmitter.drop, hst, hc, if_true]
      rw [e]
      exact ⟨fun x => Bool.noConfusion x, fun _ => hp, fun _ => hu, fun _ => hps, fun _ => hl, h.length_le,
        fun x => TxState.noConfusion x, fun x => TxState.noConfusion x, h.bits_lt⟩
    · have e : (t.drop low now).advance now = { t.drop low now with bitIdx := t.bitIdx + 1 } := by
        simp only [Transmitter.advance, Transmitter.drop, hst, hc, if_false]
      have hne : t.bitIdx.toNat + 1 ≠ t.bitLength.toNat := fun x => hc (BitVec.eq_of_toNat_eq (by rw [e1, x]))
      rw [e]
      refine ⟨fun x => Bool.noConfusion x, fun _ => hp, fun _ => hu, fun _ => hps, fun _ => hl, h.length_le, ?_, ?_, h.bits_lt⟩
      · intro _
        show (t.bitIdx + 1).toNat < t.bitLength.toNat
        omega
      · intro x
        rw [show ({ t.drop low now with bitIdx := t.bitIdx + 1 } : Transmitter).state = t.state from rfl, hst] at x
        cases x
  | trailSync =>
    have e1 : (t.passLeft - 1).toNat = t.passLeft.toNat - 1 := by
      have := passCount_lt t.passLeft
      rw [BitVec.toNat_sub]
      simp only [BitVec.ofNat_eq_ofNat, BitVec.toNat_ofNat, Config.passW_eq]
      omega
    by_cases hc : t.passLeft - 1 = 0
    · have e : (t.drop low now).advance now =
          { t.drop low now with passLeft := t.passLeft - 1, state := .quiet, quietStart := now } := by
        simp only [Transmitter.advance, Transmitter.drop, hst, hc, if_true]
      rw [e]
      exact ⟨fun x => Bool.noConfusion x, fun x => Bool.noConfusion x, fun x => Bool.noConfusion x,
        fun x => Bool.noConfusion x, fun x => Bool.noConfusion x, h.length_le, fun x => TxState.noConfusion x,
        fun x => TxState.noConfusion x, h.bits_lt⟩
    · have e : (t.drop low now).advance now = { t.drop low now with
          passLeft := t.passLeft - 1, bitIdx := 0,
          state := if t.protocolId.toNat = Config.nexaProto then .leadSync else .bits } := by
        simp only [Transmitter.advance, Transmitter.drop, hst, hc, if_false]
      have hne : t.passLeft.toNat - 1 ≠ 0 := fun x => hc (BitVec.eq_of_toNat_eq (by rw [e1, x]; rfl))
      rw [e]
      refine ⟨fun x => Bool.noConfusion x, fun _ => hp, fun _ => hu, ?_, fun _ => hl, h.length_le, fun _ => hl, ?_, h.bits_lt⟩
      · intro _
        show 1 ≤ (t.passLeft - 1).toNat
        omega
      · intro x
        by_contra h6
        have h6' : ¬ t.protocolId.toNat = Config.nexaProto := h6
        simp only [h6', if_false] at x
        cases x

/-- TX.DONE keeps the invariant (R215). -/
theorem Transmitter.done_ok {t : Transmitter} (h : t.Ok) (hp : t.pin = false) :
    ({ t with state := .idle, result := .ok } : Transmitter).Ok :=
  ⟨fun e => Bool.noConfusion (hp.symm.trans e), fun e => Bool.noConfusion e, fun e => Bool.noConfusion e,
    fun e => Bool.noConfusion e, fun e => Bool.noConfusion e, h.length_le, fun e => TxState.noConfusion e,
    fun e => TxState.noConfusion e, h.bits_lt⟩

/-- `fail(r)` keeps the invariant (R195). -/
theorem Transmitter.fail_ok {t : Transmitter} (h : t.Ok) (r : TxResult) : ({ t with result := r } : Transmitter).Ok :=
  ⟨h.pin_active, h.proto, h.unit, h.passes, h.length_pos, h.length_le, h.bit_idx, h.lead, h.bits_lt⟩

end Sys2Proof.Machine
end

