-- ==== Sys2Proof/Laws/PerInstr.lean ====
section
/-! SUPPORT. Per operation: the port its code stands on (30_encoding.md section 8). -/

namespace Sys2Proof.Laws.Port

/-- The format of the operation's code: H for the six commands, with their number in `op`, E, R, T, the segment kind, and
none for the two procedures. -/
def Statement (i : Instr) : Prop :=
  match i with
  | .nop => ∃ w, encode i = some (.input (.command w)) ∧ opField w = 0
  | .send _ => ∃ w, encode i = some (.input (.command w)) ∧ opField w = 1
  | .regwr _ _ => ∃ w, encode i = some (.input (.command w)) ∧ opField w = 2
  | .regrd _ => ∃ w, encode i = some (.input (.command w)) ∧ opField w = 3
  | .msgtake => ∃ w, encode i = some (.input (.command w)) ∧ opField w = 4
  | .catrd _ => ∃ w, encode i = some (.input (.command w)) ∧ opField w = 5
  | .edge => ∃ b, encode i = some (.input (.rxEdge b)) ∧ b = 1
  | .reset => ∃ b, encode i = some (.input (.resetIn b)) ∧ b = 1
  | .txRiseLeadSync | .txFallLeadSync | .txRiseBits | .txFallBits | .txRiseTrailSync | .txFallTrailSync | .txDone =>
    ∃ p, encode i = some (.txPattern p)
  | .segL0 | .segL1 | .segSync => ∃ k, encode i = some (.segKind k)
  | .decodeTry _ _ | .matchDur _ _ _ => encode i = none

theorem nop : Statement .nop := ⟨_, rfl, opField_commandWord ..⟩
theorem send (a : SendArgs) : Statement (.send a) := ⟨_, rfl, opField_commandWord ..⟩
theorem regwr (idx : BitVec 8) (value : PortValue) : Statement (.regwr idx value) := ⟨_, rfl, opField_commandWord ..⟩
theorem regrd (idx : BitVec 8) : Statement (.regrd idx) := ⟨_, rfl, opField_commandWord ..⟩
theorem msgtake : Statement .msgtake := ⟨_, rfl, opField_commandWord ..⟩
theorem catrd (proto : ProtoId) : Statement (.catrd proto) := ⟨_, rfl, opField_commandWord ..⟩
theorem edge : Statement .edge := ⟨_, rfl, rfl⟩
theorem txRiseLeadSync : Statement .txRiseLeadSync := ⟨_, rfl⟩
theorem txFallLeadSync : Statement .txFallLeadSync := ⟨_, rfl⟩
theorem txRiseBits : Statement .txRiseBits := ⟨_, rfl⟩
theorem txFallBits : Statement .txFallBits := ⟨_, rfl⟩
theorem txRiseTrailSync : Statement .txRiseTrailSync := ⟨_, rfl⟩
theorem txFallTrailSync : Statement .txFallTrailSync := ⟨_, rfl⟩
theorem txDone : Statement .txDone := ⟨_, rfl⟩
theorem decodeTry (p : ProtoId) (cc : Fin Config.capacity) : Statement (.decodeTry p cc) := rfl
theorem matchDur (d : Duration) (ratio : RatioBits) (unit : Duration) : Statement (.matchDur d ratio unit) := rfl
theorem segL0 : Statement .segL0 := ⟨_, rfl⟩
theorem segL1 : Statement .segL1 := ⟨_, rfl⟩
theorem segSync : Statement .segSync := ⟨_, rfl⟩
theorem reset : Statement .reset := ⟨_, rfl, rfl⟩

end Sys2Proof.Laws.Port
end

