-- ==== Sys2Proof/Laws/Schedule.lean ====
section
/-! SUPPORT. Which step comes next (R73, R216, R271): one equation for each way the block goes on. -/

namespace Sys2Proof.Machine

/-- A turn that is earlier than the transmitter's step, or at the same value and first, is taken first. -/
theorem txGoesFirst_false {s : State} {t : Turn} {k : Nat}
    (h : (tsub t.time s.now).toNat < k ∨ ((tsub t.time s.now).toNat = k ∧ t.txFirst = false)) :
    txGoesFirst s t k = false := by
  unfold txGoesFirst
  rcases h with h | ⟨h, h'⟩
  · simp only [Bool.or_eq_false_iff, Bool.and_eq_false_iff, decide_eq_false_iff_not]
    exact ⟨by omega, Or.inl (by omega)⟩
  · simp [h, h']

/-- The transmitter's step is taken first when it is due earlier, or at the same value and first. -/
theorem txGoesFirst_true {s : State} {t : Turn} {k : Nat}
    (h : k < (tsub t.time s.now).toNat ∨ (k = (tsub t.time s.now).toNat ∧ t.txFirst = true)) :
    txGoesFirst s t k = true := by
  unfold txGoesFirst
  rcases h with h | ⟨h, h'⟩
  · simp [h]
  · simp [h, h']

/-- The step is the environment's turn. -/
theorem nextStep_turn {s : State} {t : Turn} {rest : List Turn} (ht : s.turns = t :: rest)
    (hk : ∀ k, txWait s = some k → txGoesFirst s t k = false) : nextStep s = takeTurn t rest s := by
  unfold nextStep
  rw [ht]
  dsimp only
  cases hx : txWait s with
  | none => rfl
  | some k => simp only [hk k hx, Bool.false_eq_true, if_false]

/-- The step is the transmitter's. -/
theorem nextStep_tx {s : State} {k : Nat} (hk : txWait s = some k)
    (ht : ∀ t rest, s.turns = t :: rest → txGoesFirst s t k = true) : nextStep s = takeTxStep s k := by
  unfold nextStep
  cases hs : s.turns with
  | nil => simp only [hk]
  | cons t rest => simp only [hk, ht t rest hs, if_true]

/-- A turn with an input that decodes runs that operation at the turn's counter value. -/
theorem takeTurn_input {s : State} {t : Turn} {rest : List Turn} {x : Input} {i : Instr} (hw : t.what = .input x)
    (hd : decode (.input x) = .ok i) : takeTurn t rest s = exec i ((s.setTurns rest).setNow t.time) := by
  unfold takeTurn takeStimulus
  rw [hw]
  dsimp only
  rw [hd]

/-- In an active state a step is due after the pending delay (R216). -/
theorem txWait_active {s : State} (h : s.tx.state = .leadSync ∨ s.tx.state = .bits ∨ s.tx.state = .trailSync) :
    txWait s = some (phaseWait s) := by
  unfold txWait
  rcases h with h | h | h <;> rw [h]

/-- In `QUIET` with the pin low, TX.DONE is due when the quiet period is over (R215, R216). -/
theorem txWait_quiet {s : State} (h : s.tx.state = .quiet) (hp : s.tx.pin = false) :
    txWait s = some (Config.quietUs - quietElapsed s) := by
  unfold txWait
  rw [h, hp]
  rfl

/-- In `IDLE` no step is due. -/
theorem txWait_idle {s : State} (h : s.tx.state = .idle) : txWait s = none := by
  unfold txWait
  rw [h]

end Sys2Proof.Machine
end

