-- ==== Sys2Proof/Tests/Slice0.lean ====
section
/-! SUPPORT. Small tests. Every expected result is the spec's own (R251, the examples of the rules, the vectors V<n> of
95_test_vectors.md); after them a witness for the hypotheses of each obligation that has some. -/

namespace Sys2Proof.Tests

open Sys2Proof.Machine

/-! ## The parameters -/

/-- The values of R6 and the constraints of R7. -/
theorem test_parameters : Config.params =
    { nProtocols := 6, capacity := 67, gapUs := 5000, syncMatchUs := 200, repeatTrigger := 2, minChanges := 6,
      quietUs := 500000, defaultLen := 24, wideLen := 32, wideThreshold := 2 ^ 24, nexaProto := 6, timeW := 64,
      codeW := 64, durW := 64, ratioW := 8, pulseW := 32, txDefProtoReset := 1, txDefPulseReset := 0 } := by decide

/-! ## Helpers -/

def ratio (n : Nat) : Ratio := ⟨Fin.ofNat 255 (n - 1)⟩

/-- A record from its fields, in the source's order. -/
def record (u sh sl zh zl oh ol : Nat) : Protocol :=
  { pulseUnitUs := ⟨Fin.ofNat 4294967295 (u - 1)⟩, syncHigh := ratio sh, syncLow := ratio sl, zeroHigh := ratio zh,
    zeroLow := ratio zl, oneHigh := ratio oh, oneLow := ratio ol }

/-- `CATALOG_REF` (40_catalog.md section 4): a concrete catalog for the vectors, no part of the model. -/
def catalogRef : Vector Protocol Config.nProtocols :=
  #v[record 350 1 31 1 3 3 1, record 650 1 10 1 2 2 1, record 100 30 71 4 11 9 6, record 380 1 6 1 3 3 1,
    record 500 6 14 1 2 2 1, record 200 1 10 1 5 1 1]

/-- The block after RESET with `CATALOG_REF`, both agents enabled, `RX_TOL` = 80, `TX_REPEAT` = 2, the counter at `now`. -/
def ready (now : Time) : State :=
  { State.reset with
    catalog := catalogRef, now := now,
    cfg := { tolerancePercent := 80, rxEn := true, txEn := true, txRepeat := 2, txDefProto := 1, txDefPulse := 0 } }

/-- A ring with these first entries, the rest 0. -/
def ring (l : List Nat) : Vector Duration Config.capacity :=
  Vector.ofFn fun i : Fin Config.capacity => BitVec.ofNat 64 (l.getD i.val 0)

/-- The start of V5 to V9: `frame[0]` = `gap`, `repeat_count` = `rc`, `change_count` = `cc`, an edge due at `d`. -/
def gapState (gap : Nat) (rc : BitVec 2) (cc : Fin (Config.capacity + 1)) (d : Time) : State :=
  (ready (1000 + d)).setCap { frame := ring [gap], lastEdgeTimestamp := 1000, repeatCount := rc, changeCount := cc }

/-- The frame Z3 of 95_test_vectors.md section 2.3, at the counter value 7777. -/
def z3 : State :=
  (ready 7777).setCap
    { frame := ring [10850, 350, 1050, 350, 1050, 1050, 350, 350], lastEdgeTimestamp := 0, repeatCount := 1,
      changeCount := 8 }

/-- The transmitter of V80 after its acceptance, with the pin, the cursor and the state given. -/
def sending (st : TxState) (pin : Bool) (start : Time) (delay : BitVec 40) (now : Time) : State :=
  (ready now).setTx { Transmitter.reset with
    protocolId := 1, pulseUnitUs := 350, bitLength := 4, bits := 5, passLeft := 2, state := st, pin := pin,
    segmentStart := start, pendingDelay := delay }

/-- The outcome is a next state of which `p` holds. -/
def answers (o : Result) (p : State → Bool) : Bool :=
  match o with
  | .next t => p t
  | .fault _ => false
  | .refused _ => false

/-- SEND of a code with nothing else given. -/
def plain (code : CodeWord) : SendArgs :=
  { pv := false, proto := 0, uv := false, unit := 0, lv := false, len := 0, code := code }

/-- A turn. -/
def turn (time : Time) (txFirst : Bool) (x : Input) : Turn := { time := time, txFirst := txFirst, what := .input x }

/-! ## Decoding: words and codes of the spec -/

theorem test_word_nop : decodeTableWord 128 0 = some .nop := by decide
theorem test_word_send : decodeTableWord 128 0x10000000000000000000000000A5A5A5 = some (.send (plain 0xA5A5A5)) := by decide
theorem test_word_send_proto_len : decodeTableWord 128 0x10041800000001040000000000000006 =
    some (.send { plain 6 with pv := true, proto := 6, lv := true, len := 4 }) := by decide
theorem test_word_send_proto_unit : decodeTableWord 128 0x10040A00000320000000000000000001 =
    some (.send { plain 1 with pv := true, proto := 2, uv := true, unit := 400 }) := by decide
theorem test_word_regwr : decodeTableWord 128 0x20000000000000050000000000000190 = some (.regwr 5 400) := by decide
theorem test_word_regrd : decodeTableWord 128 0x30000000000000120000000000000000 = some (.regrd 0x12) := by decide
theorem test_word_msgtake : decodeTableWord 128 0x40000000000000000000000000000000 = some .msgtake := by decide
theorem test_word_catrd : decodeTableWord 128 0x50001C00000000000000000000000000 = some (.catrd 7) := by decide
/-- V99 and the must-be-zero bits of R90 and R91. -/
theorem test_word_reserved : decodeTableWord 128 0x60000000000000000000000000000000 = none ∧
    decodeTableWord 128 0x10080000000000000000000000000000 = none ∧
    decodeTableWord 128 0x20000000000001020000000000000050 = none ∧
    decodeTableWord 128 0x30000000000000010000000000000001 = none ∧
    decodeTableWord 128 0x50001800000000000000000000000001 = none ∧ decodeTableWord 128 1 = none := by decide
/-- R86, R109. -/
theorem test_code_inputs : decode (.input (.rxEdge 1)) = .ok .edge ∧ decode (.input (.rxEdge 0)) = .error .noEdge ∧
    decode (.input (.resetIn 1)) = .ok .reset ∧ decode (.input (.resetIn 0)) = .error .noReset := by decide
/-- R102: the sixteen patterns. -/
theorem test_code_patterns : (List.range 16).map (fun n => decode (.txPattern (BitVec.ofNat 4 n))) =
    [.error (.noTxStep 0), .error (.noTxStep 1), .ok .txRiseLeadSync, .ok .txFallLeadSync, .ok .txRiseBits,
      .ok .txFallBits, .ok .txRiseTrailSync, .ok .txFallTrailSync, .ok .txDone, .error (.noTxStep 9),
      .error (.noTxStep 10), .error (.noTxStep 11), .error (.noTxStep 12), .error (.noTxStep 13),
      .error (.noTxStep 14), .error (.noTxStep 15)] := by decide
/-- R102, R109: the segment kinds. -/
theorem test_code_segments : decode (.segKind 0) = .ok .segL0 ∧ decode (.segKind 1) = .ok .segL1 ∧
    decode (.segKind 2) = .ok .segSync ∧ decode (.segKind 3) = .error .noSegment := by decide
/-- 40_catalog.md section 4: the packed records. -/
theorem test_pack : catalogRef.toList.map packProtocol =
    [0x0000015E011F01030301, 0x0000028A010A01020201, 0x000000641E47040B0906, 0x0000017C010601030301,
      0x000001F4060E01020201, 0x000000C8010A01050101] := by decide
theorem test_unpack_illegal : unpackProtocol 0x0000015E001F01030301 = none ∧
    unpackProtocol 0x00000000011F01030301 = none := by decide

/-! ## Well-formedness -/

theorem test_wf_decode_proto_0 : Instr.wf (.decodeTry 0 7) = false := by decide
theorem test_wf_decode_proto_7 : Instr.wf (.decodeTry 7 7) = false ∧ Instr.wf (.decodeTry 6 7) = true := by decide
theorem test_wf_match_ratio_0 : Instr.wf (.matchDur 629 0 350) = false ∧ Instr.wf (.matchDur 629 1 350) = true := by decide

/-! ## The catalog -/

/-- V1a, V1b. -/
theorem test_catrd : answers (exec (.catrd 1) (ready 0)) (fun t => t.response == some (.record (some (record 350 1 31 1 3 3 1))))
    = true ∧ answers (exec (.catrd 6) (ready 0)) (fun t => t.response == some (.record (some (record 200 1 10 1 5 1 1))))
    = true := by decide
/-- V1c, V1d. -/
theorem test_catrd_invalid : answers (exec (.catrd 0) (ready 0)) (fun t => t.response == some (.record none)) = true ∧
    answers (exec (.catrd 7) (ready 0)) (fun t => t.response == some (.record none)) = true := by decide

/-! ## Edge capture -/

/-- V2a. -/
theorem test_edge_first_data : answers (exec .edge (ready 150)) (fun t =>
    t.cap.lastEdgeTimestamp == 150 && t.cap.repeatCount == 0 && t.cap.changeCount == 1 && frameAt t.cap.frame 0 == 150)
    = true := by decide
/-- V2b. -/
theorem test_edge_first_gap : answers (exec .edge (ready 5150)) (fun t =>
    t.cap.lastEdgeTimestamp == 5150 && t.cap.repeatCount == 0 && t.cap.changeCount == 1 && frameAt t.cap.frame 0 == 5150)
    = true := by decide
/-- V3, V4: 5000 is data, 5001 a long gap. -/
theorem test_edge_gap_boundary : answers (exec .edge (gapState 100000 0 2 5000)) (fun t =>
    t.cap.changeCount == 3 && frameAt t.cap.frame 2 == 5000 && frameAt t.cap.frame 0 == 100000) = true ∧
    answers (exec .edge (gapState 100000 0 2 5001)) (fun t =>
      t.cap.changeCount == 1 && frameAt t.cap.frame 0 == 5001 && t.cap.repeatCount == 0) = true := by decide
/-- V5 to V8: a match is strictly within 200. -/
theorem test_edge_match_boundary : [11049, 11050, 10651, 10650].map (fun d => answers (exec .edge (gapState 10850 0 8 d))
    (fun t => t.cap.repeatCount == 1 && t.cap.changeCount == 1 && frameAt t.cap.frame 0 == d)) =
    [true, false, true, false] := by decide
/-- V12: the second match decodes the frame that ends. -/
theorem test_edge_second_match : answers (exec .edge (z3.setNow 10850)) (fun t =>
    t.msg == { code := 1, timestamp := 10850, bitLength := 3, pulseUnitUs := 350, protocolId := 1 } && t.msgPending &&
    t.cap.repeatCount == 0 && t.cap.changeCount == 1 && frameAt t.cap.frame 0 == 10850) = true := by decide
/-- V14: the overflow. -/
theorem test_edge_overflow : answers (exec .edge (gapState 100000 1 67 400)) (fun t =>
    t.cap.changeCount == 1 && t.cap.repeatCount == 0 && frameAt t.cap.frame 0 == 400) = true := by decide
/-- V15: the counter wraps. -/
theorem test_edge_wrap : edgeDuration ((ready 340).setCap { Capture.reset with lastEdgeTimestamp := 0 - 10 }) = 350 := by
  decide
/-- V16: `change_count` is not taken below 0, and the six attempts on an empty frame fail. -/
theorem test_edge_empty_frame : answers (exec .edge (gapState 10850 1 1 10850)) (fun t =>
    t.cap.repeatCount == 0 && t.cap.changeCount == 1 && !t.msgPending) = true := by decide

/-! ## The decoder -/

/-- V20 to V23. -/
theorem test_match : [(629, 1), (630, 1), (71, 1), (70, 1), (1329, 3), (1330, 3), (771, 3), (770, 3)].map
    (fun x : Nat × Nat => matchDuration 80 350 x.2 x.1) = [true, false, true, false, true, false, true, false] := by decide
/-- V28, V29: the window is not rounded. -/
theorem test_match_not_rounded : matchDuration 25 350 3 1137 = true ∧ matchDuration 25 350 3 1138 = false := by decide
theorem test_match_answers : answers (exec (.matchDur 629 1 350) (ready 0)) (fun t => t.response == some (.matched true))
    = true := by decide
/-- V28a. -/
theorem test_decode : answers (exec (.decodeTry 1 7) z3) (fun t => t.response == some (.decoded true) && t.msgPending &&
    t.msg == { code := 1, timestamp := 7777, bitLength := 3, pulseUnitUs := 350, protocolId := 1 }) = true := by decide
/-- V29a: a frame of 6 is too short. -/
theorem test_decode_short : answers (exec (.decodeTry 1 6) z3) (fun t => t.response == some (.decoded false) &&
    !t.msgPending && t.msg == Message.reset) = true := by decide

/-! ## The hand-off -/

/-- V71. -/
theorem test_msgtake : answers (exec .msgtake (z3.commitMessage ⟨5, 150400, 4, 350, 1⟩)) (fun t =>
    t.response == some (.message true ⟨5, 150400, 4, 350, 1⟩) && !t.msgPending && !msgIrq t &&
    t.msg == ⟨5, 150400, 4, 350, 1⟩) = true := by decide
/-- V70. -/
theorem test_msgtake_nothing : answers (exec .msgtake (ready 0)) (fun t =>
    t.response == some (.message false Message.reset)) = true := by decide

/-! ## SEND -/

/-- V40. -/
theorem test_send : answers (exec (.send (plain 0xA5A5A5)) (ready 9)) (fun t => t.response == none && t.tx.protocolId == 1 &&
    t.tx.pulseUnitUs == 350 && t.tx.bitLength == 24 && t.tx.bits == 0b101001011010010110100101 && t.tx.state == .bits &&
    t.tx.passLeft == 2) = true := by decide
/-- V41, V43, V45: FAIL_ARG_RANGE. -/
theorem test_send_arg_range : [plain 0x1000000, plain 0x1FFFFFFFF, { plain 5 with lv := true, len := 2 },
    { plain 5 with lv := true, len := 0 }, { plain 5 with lv := true, len := 65 }, { plain 1 with uv := true, unit := 0 },
    { plain 1 with pv := true, proto := 6, lv := true, len := 33 }].map
      (fun a => answers (exec (.send a) (ready 9)) (fun t => t.response == some (.send .failArgRange) &&
        t.tx == { Transmitter.reset with result := .failArgRange })) =
    [true, true, true, true, true, true, true] := by decide
/-- V42, V43, V49c: the lengths 32, 33 and 64. -/
theorem test_send_lengths : [plain 0x1000001, { plain 0x1FFFFFFFF with lv := true, len := 33 },
    { plain 0xFFFFFFFFFFFFFFFF with lv := true, len := 64 }].map
      (fun a => answers (exec (.send a) (ready 9)) (fun t => t.tx.bits == a.code)) = [true, true, true] ∧
    answers (exec (.send (plain 0x1000001)) (ready 9)) (fun t => t.tx.bitLength == 32) = true := by decide
/-- V46: protocol 6 doubles the bits. -/
theorem test_send_nexa : answers (exec (.send { plain 6 with pv := true, proto := 6, lv := true, len := 4 }) (ready 9))
    (fun t => t.tx.bitLength == 8 && t.tx.bits == 0b01101001 && t.tx.pulseUnitUs == 200 && t.tx.state == .leadSync)
    = true := by decide
/-- V47: 31 times "01", then "10". -/
theorem test_send_nexa_default : answers (exec (.send { plain 1 with pv := true, proto := 6 }) (ready 9))
    (fun t => t.tx.bitLength == 64 && t.tx.bits == 0x5555555555555556) = true := by decide
/-- V48, V49b: the order of the checks. -/
theorem test_send_unknown_disabled : answers (exec (.send { plain 1 with pv := true, proto := 7 }) (ready 9))
    (fun t => t.response == some (.send .failUnknownProtocol) && t.tx.state == .idle) = true ∧
    answers (exec (.send { plain 1 with pv := true, proto := 7 }) ((ready 9).setCfg HostConfig.reset))
      (fun t => t.response == some (.send .failDisabled)) = true := by decide
/-- V49, V49a: the pulse unit. -/
theorem test_send_unit : answers (exec (.send { plain 1 with pv := true, proto := 2, uv := true, unit := 400 }) (ready 9))
    (fun t => t.tx.pulseUnitUs == 400) = true ∧
    answers (exec (.send { plain 1 with pv := true, proto := 2 }) ((ready 9).setCfg { (ready 9).cfg with txDefPulse := 400 }))
      (fun t => t.tx.pulseUnitUs == 400 && t.tx.protocolId == 2) = true := by decide
/-- V49e: no pass. -/
theorem test_send_no_pass : answers (exec (.send { plain 5 with lv := true, len := 4 })
    ((ready 9).setCfg { (ready 9).cfg with txRepeat := 0 })) (fun t => t.tx.state == .quiet && t.tx.quietStart == 9)
    = true := by decide
/-- V49f. -/
theorem test_send_waits : answers (exec (.send (plain 1)) (sending .bits false 0 0 9))
    (fun t => t.waiting == [plain 1] && t.response == none && t.tx == (sending .bits false 0 0 9).tx) = true := by decide

/-! ## The transmitter -/

/-- V80: the first rise. -/
theorem test_tx_rise : answers (exec .txRiseBits (sending .bits false 0 0 1000000)) (fun t => t.tx.pin &&
    t.tx.segmentStart == 1000000 && t.tx.pendingDelay == 350 && t.tx.state == .bits) = true := by decide
/-- V80: the first fall, a zero. -/
theorem test_tx_fall : answers (exec .txFallBits (sending .bits true 1000000 350 1000350)) (fun t => !t.tx.pin &&
    t.tx.segmentStart == 1000350 && t.tx.pendingDelay == 1050 && t.tx.bitIdx == 1 && t.tx.state == .bits) = true := by decide
/-- V83: not one microsecond early. -/
theorem test_tx_rise_early : exec .txRiseBits (sending .bits false 1000 350 1349) = .refused .notEnabled ∧
    answers (exec .txRiseBits (sending .bits false 1000 350 1350)) (fun t => t.tx.pin) = true := ⟨by rfl, by decide⟩
/-- V85: the cursor across the wrap. -/
theorem test_tx_fall_wrap : (phaseOver (sending .bits true (0 - 100) 350 249) = false) ∧
    phaseOver (sending .bits true (0 - 100) 350 250) = true := by decide
/-- R207, R226: the sync segment of the first of two passes. -/
theorem test_tx_trail : answers (exec .txRiseTrailSync (sending .trailSync false 1004550 1050 1005600)) (fun t =>
      t.tx.pendingDelay == 350) = true ∧
    answers (exec .txFallTrailSync (sending .trailSync true 1005600 350 1005950)) (fun t => t.tx.state == .bits &&
      t.tx.passLeft == 1 && t.tx.bitIdx == 0 && t.tx.pendingDelay == 10850) = true := by decide
/-- V81: the leading sync of protocol 6. -/
def leading (pin : Bool) (start : Time) (delay : BitVec 40) (now : Time) : State :=
  (ready now).setTx { Transmitter.reset with
    protocolId := 6, pulseUnitUs := 200, bitLength := 8, bits := 0b01101001, passLeft := 1, state := .leadSync, pin := pin,
    segmentStart := start, pendingDelay := delay }
theorem test_tx_lead : answers (exec .txRiseLeadSync (leading false 0 0 2000000)) (fun t => t.tx.pin &&
      t.tx.pendingDelay == 200) = true ∧
    answers (exec .txFallLeadSync (leading true 2000000 200 2000200)) (fun t => t.tx.state == .bits && t.tx.bitIdx == 0 &&
      t.tx.pendingDelay == 2000) = true := by decide
/-- V84. -/
def quiet (now : Time) : State :=
  (ready now).setTx { Transmitter.reset with state := .quiet, quietStart := 1022750, passLeft := 0 }
theorem test_tx_done : exec .txDone (quiet 1522749) = .refused .notEnabled ∧
    answers (exec .txDone (quiet 1522750)) (fun t => t.tx.state == .idle && t.tx.result == .ok &&
      t.response == some (.send .ok)) = true := ⟨by rfl, by decide⟩
/-- R208, R226: a zero, 350 high, then 1050 low pending. -/
theorem test_seg_l0 : answers (exec .segL0 (sending .bits false 0 0 1000000)) (fun t => t.now == 1000350 && !t.tx.pin &&
    t.tx.segmentStart == 1000350 && t.tx.pendingDelay == 1050 && t.tx.bitIdx == 1) = true := by decide
/-- R209: a one after it, at 1001400; R208's selection refuses it as a zero. -/
def secondBit : State :=
  (sending .bits false 1000350 1050 1000350).setTx { (sending .bits false 1000350 1050 1000350).tx with bitIdx := 1 }
theorem test_seg_l1 : answers (exec .segL1 secondBit) (fun t => t.now == 1002450 && t.tx.pendingDelay == 350 &&
    t.tx.bitIdx == 2) = true ∧ exec .segL0 secondBit = .refused .notEnabled := ⟨by decide, by rfl⟩
/-- R210. -/
theorem test_seg_sync : answers (exec .segSync (sending .trailSync false 1004550 1050 1004550)) (fun t =>
    t.now == 1005950 && t.tx.pendingDelay == 10850 && t.tx.state == .bits) = true ∧
    answers (exec .segSync (leading false 0 0 2000000)) (fun t => t.now == 2000200 && t.tx.state == .bits) = true := by decide

/-! ## Registers and RESET -/

theorem test_nop : exec .nop (ready 5) = .next (ready 5) := by rfl
/-- V91, V92, V93. -/
theorem test_regwr : answers (exec (.regwr 0 0xFFFFFFFFFFFFFFFF) State.reset) (fun t => t.cfg.rxEn && t.cfg.txEn) = true ∧
    answers (exec (.regwr 2 0x13C) (ready 0)) (fun t => t.cfg.tolerancePercent == 60 && t.cfg.txRepeat == 2) = true ∧
    answers (exec (.regwr 5 400) (ready 0)) (fun t => t.cfg.txDefPulse == 400) = true := by decide
/-- V94, V95. -/
theorem test_regwr_read_only : answers (exec (.regwr 1 0) (z3.commitMessage ⟨5, 150400, 4, 350, 1⟩)) (fun t => t.msgPending &&
    t.cfg == z3.cfg) = true ∧ answers (exec (.regwr 6 5) z3) (fun t => t.cfg == z3.cfg) = true := by decide
/-- V96, V91: STATUS while busy is 2, after a FAIL_ARG_RANGE 16, after RESET 0; CTRL reads 3. -/
theorem test_regrd : readReg (sending .bits false 0 0 0) 1 = 2 ∧ readReg State.reset 1 = 0 ∧
    readReg ((ready 0).failSend .failArgRange) 1 = 16 ∧ readReg (ready 0) 0 = 3 := by decide
/-- V74, V95: a code, and an unmapped index. -/
theorem test_regrd_answers : answers (exec (.regrd 8) (z3.commitMessage ⟨5, 150400, 4, 350, 1⟩)) (fun t => t.msgPending &&
    t.response == some (.value 5)) = true ∧
    answers (exec (.regrd 6) (ready 0)) (fun t => t.response == some (.value 0)) = true := by decide
/-- V101, V102. -/
theorem test_reset : answers (exec .reset ((sending .bits true 0 350 7).commitMessage ⟨5, 150400, 4, 350, 1⟩)) (fun t =>
    t.tx == Transmitter.reset && !t.msgPending && t.msg == Message.reset && t.response == none && t.now == 7) = true := by
  decide
/-- V103: right after RESET edges are dropped and a SEND fails. -/
theorem test_after_reset : answers (exec .edge { State.reset with now := 5150 }) (fun t => t.cap == Capture.reset) = true ∧
    answers (exec (.send (plain 1)) State.reset) (fun t => t.response == some (.send .failDisabled)) = true := by decide

/-! ## The step -/

/-- A placed word runs as the first step after reset. -/
theorem test_step_send : answers (step (State.reset.withFetchWord 128 0x10000000000000000000000000000001)) (fun t =>
    t.response == some (.send .failDisabled)) = true := by decide
/-- A placed pattern is the transmitter's next step. -/
theorem test_step_pattern : answers (step (State.reset.withFetchWord 8 0b0100)) (fun t => t.tx.pin) = true ∧
    answers (step (State.reset.withFetchWord 8 0b1000)) (fun t => t.tx.state == .idle && t.now == 500000) = true := by decide

/-! ## Witnesses: the hypotheses of the obligations can be met, each clause at a boundary -/

/-- The first turn is the word `w`, presented at `time`. -/
def withWord (s : State) (time : Time) (txFirst : Bool) (w : CommandWord) : State :=
  s.setTurns [turn time txFirst (.command w)]

/-- EncodedOperationsDecodeToThemselves and AcceptedCodesAreEncodings: the largest CATRD. -/
theorem witness_codes : encode (.catrd 255) = some (.input (.command 0x5003FC00000000000000000000000000)) ∧
    decode (.input (.command 0x5003FC00000000000000000000000000)) = .ok (.catrd 255) := by decide
/-- ReservedCommandWordsAreRefused: each kind of reserved word, and a step that meets one. -/
theorem witness_reserved :
    6 ≤ ((0x60000000000000000000000000000000 : CommandWord).extractLsb' 124 4).toNat ∧
    (0x10080000000000000000000000000000 : CommandWord).extractLsb' 115 9 ≠ 0 ∧
    (0x00000000000000000000000000000001 : CommandWord).extractLsb' 0 124 ≠ 0 ∧
    (0x40000000000000000000000000000001 : CommandWord).extractLsb' 0 124 ≠ 0 ∧
    (0x20000000000001000000000000000000 : CommandWord).extractLsb' 72 52 ≠ 0 ∧
    (0x30000000000000000000000000000001 : CommandWord).extractLsb' 0 64 ≠ 0 ∧
    (0x50040000000000000000000000000000 : CommandWord).extractLsb' 114 10 ≠ 0 ∧
    (0x50000000000000000000000000000001 : CommandWord).extractLsb' 0 106 ≠ 0 ∧
    txWait (withWord (ready 0) 5 false 0x60000000000000000000000000000000) = none := by decide
/-- CatalogRecordsPackIntoEightyBits: all fields at their least value, all at their largest, no two alike, and a field at 0
(30_encoding.md section 6). -/
theorem witness_pack : unpackProtocol 0x00000001010101010101 = some (record 1 1 1 1 1 1 1) ∧
    unpackProtocol 0xFFFFFFFFFFFFFFFFFFFF = some (record 4294967295 255 255 255 255 255 255) ∧
    unpackProtocol 0x0000015E011F02030405 = some (record 350 1 31 2 3 4 5) ∧
    unpackProtocol 0x0000015E011F02000405 = none := by decide
/-- StepRunsThePresentedOperation, with the transmitter idle, due later, and due at the same value but second. -/
theorem witness_presented :
    let s := withWord (ready 0) 5 true 0x40000000000000000000000000000000
    let b := withWord (sending .bits false 0 350 0) 349 true 0x40000000000000000000000000000000
    let c := withWord (sending .bits false 0 350 0) 350 false 0x40000000000000000000000000000000
    decode (.input (.command 0x40000000000000000000000000000000)) = .ok .msgtake ∧ txWait s = none ∧
      (txWait b = some 350 ∧ (tsub 349 b.now).toNat < 350) ∧ (txWait c = some 350 ∧ (tsub 350 c.now).toNat = 350) := by
  decide
/-- TransmitterStepsComeAtTheFirstEnabledInstant: alone, before a later turn, first at the same value, in `QUIET`. -/
theorem witness_tx_due :
    txWait (sending .bits false 0 350 0) = some 350 ∧ (sending .bits false 0 350 0).turns = [] ∧
    (let b := withWord (sending .bits true 0 350 0) 351 false 0
     txWait b = some 350 ∧ 350 < (tsub 351 b.now).toNat) ∧
    (let c := withWord (sending .bits true 0 350 0) 350 true 0
     txWait c = some 350 ∧ 350 = (tsub 350 c.now).toNat) ∧
    txWait (quiet 1022750) = some 500000 := by decide
/-- PlacedWordIsTheNextStep. -/
theorem witness_placed : decodeTableWord 128 0x10000000000001040000000000000005 =
    some (.send { plain 5 with lv := true, len := 4 }) := by decide
/-- WaitingSendIsTakenOnlyWhenIdle: idle and busy. -/
theorem witness_waiting :
    let take : Turn := { time := 349, txFirst := true, what := .accept }
    let s := ((ready 0).setTurns [take]).setWaiting [plain 1]
    let b := ((sending .bits false 0 350 0).setTurns [take]).setWaiting [plain 1, plain 2]
    txWait s = none ∧ s.tx.state = .idle ∧ txWait b = some 350 ∧ (tsub take.time b.now).toNat < 350 ∧
      b.tx.state ≠ .idle := by decide
/-- WaitingSendIsTakenOnlyWhenIdle with no turn left: idle, and busy with a step that is a next state. -/
theorem witness_waiting_alone :
    (let s := (ready 0).setWaiting [plain 1, plain 2]
     s.turns = [] ∧ s.tx.state = .idle ∧ answers (step s) (fun t => t.waiting = [plain 2])) ∧
    (let b := (sending .bits false 0 350 0).setWaiting [plain 1]
     b.turns = [] ∧ b.tx.state ≠ .idle ∧ answers (step b) (fun t => t.waiting = [plain 1])) := by decide
/-- BadCatalogIndexIsNeverARecord and CatrdAnswersTheRecord at 0, 1, 6, 7. -/
theorem witness_bad_index :
    (let a := { plain 1 with pv := true, proto := 0 }
     (ready 0).tx.state = .idle ∧ (ready 0).waiting = [] ∧ (ready 0).cfg.txEn = true ∧
       (if a.pv then a.proto else (ready 0).cfg.txDefProto) = 0) ∧
    7 ≤ (7 : ProtoId).toNat ∧ (protocolAt catalogRef 1).isSome ∧ (protocolAt catalogRef 6).isSome ∧
    protocolAt catalogRef 0 = none ∧ protocolAt catalogRef 7 = none := by decide
/-- CatalogIsNeverWritten, EveryStepKeepsTheInvariant and NoStepStopsButOnAReservedWord: a step of the state after reset. -/
theorem witness_step : step State.reset = .next State.reset := by rfl
/-- The invariant holds of a transmitter in the middle of a transmission. -/
theorem witness_tx_ok : (sending .bits true 1000000 350 1000350).tx.Ok := by
  constructor <;> decide
theorem witness_ok : (sending .bits true 1000000 350 1000350).Ok :=
  ⟨by unfold Capture.Ok; decide, Or.inr ⟨rfl, rfl⟩, witness_tx_ok⟩
/-- DecodeReadsTheFrame: the least and the greatest id; its test on both sides of the length is test_decode, test_decode_short. -/
theorem witness_decode : getElem? z3.catalog ((1 : ProtoId).toNat - 1) = some (record 350 1 31 1 3 3 1) ∧
    getElem? z3.catalog ((6 : ProtoId).toNat - 1) = some (record 200 1 10 1 5 1 1) := by decide
/-- DecodedNumbersFitTheirRegisters. -/
theorem witness_numbers : decodeFrame (record 350 1 31 1 3 3 1) 1 z3.cap.frame 80 7 7777 =
    some { code := 1, timestamp := 7777, bitLength := 3, pulseUnitUs := 350, protocolId := 1 } := by decide
/-- ZeroToleranceMakesNoMessage and DisabledReceiverDropsEdges. -/
theorem witness_receiver_off : (z3.setCfg { z3.cfg with tolerancePercent := 0 }).cfg.tolerancePercent = 0 ∧
    (z3.setCfg { z3.cfg with rxEn := false }).cfg.rxEn = false := by decide
/-- DataEdgeIsStored: the longest data edge into the last entry. -/
theorem witness_data_edge : let s := gapState 10850 1 66 5000
    s.cfg.rxEn = true ∧ (5000 : Duration).toNat = (s.now.toNat + 2 ^ 64 - s.cap.lastEdgeTimestamp.toNat) % 2 ^ 64 ∧
      (5000 : Duration).toNat ≤ 5000 ∧ s.cap.changeCount.val < 67 := by decide
/-- OverflowingEdgeRestartsTheFrame. -/
theorem witness_overflow : let s := gapState 10850 1 67 5000
    s.cfg.rxEn = true ∧ 5000 = tsub s.now s.cap.lastEdgeTimestamp ∧ (5000 : Duration).toNat ≤ 5000 ∧
      s.cap.changeCount.val = 67 := by decide
/-- UnmatchedLongGapKeepsTheRepeatCount, at the difference 200. -/
theorem witness_unmatched : let s := gapState 5201 1 8 5001
    s.cfg.rxEn = true ∧ 5001 = tsub s.now s.cap.lastEdgeTimestamp ∧ 5000 < (5001 : Duration).toNat ∧
      200 ≤ absdiff (5001 : Duration).toNat (frameAt s.cap.frame 0).toNat := by decide
/-- FirstMatchIsOnlyCounted and SecondMatchTriesTheProtocolsInOrder, at the difference 199. -/
theorem witness_matched : let s := gapState 5200 0 8 5001; let s' := gapState 10850 1 67 11049
    (s.cfg.rxEn = true ∧ 5001 = tsub s.now s.cap.lastEdgeTimestamp ∧ 5000 < (5001 : Duration).toNat ∧
      absdiff 5001 (frameAt s.cap.frame 0).toNat < 200 ∧ s.cap.repeatCount = 0) ∧
    (s'.cfg.rxEn = true ∧ 11049 = tsub s'.now s'.cap.lastEdgeTimestamp ∧ absdiff 11049 (frameAt s'.cap.frame 0).toNat < 200 ∧
      s'.cap.repeatCount = 1) := by decide
/-- ShortFirstEntryNeverMatches, at 4800 and 5001. -/
theorem witness_short_first : let s := gapState 4800 1 8 5001
    s.cfg.rxEn = true ∧ (frameAt s.cap.frame 0).toNat ≤ 4800 ∧ 5000 < (tsub s.now s.cap.lastEdgeTimestamp).toNat ∧
      s.cap.repeatCount.toNat ≤ 1 := by decide
/-- MsgtakeAndEdgeInEitherOrder, ReceiverIgnoresTheTransmitter, NewMessagesAreDecodes, StateIsWrittenByItsOwner: an edge that
makes a message. -/
theorem witness_edge_message : ∃ e, exec .edge (z3.setNow 10850) = .next e ∧ e.msgPending = true ∧
    (z3.setNow 10850).msgPending = false := ⟨_, rfl, by decide, by decide⟩
/-- MsgtakeAndEdgeInEitherOrder: that edge decodes, by protocol 1; with the first match only, it is an edge that does not. -/
theorem witness_edge_decodes :
    (let s := z3.setNow 10850
     let d := tsub s.now s.cap.lastEdgeTimestamp
     s.cfg.rxEn = true ∧ 5000 < d.toNat ∧ absdiff d.toNat (frameAt s.cap.frame 0).toNat < 200 ∧ s.cap.repeatCount = 1 ∧
       answers (exec (.decodeTry 1 (Fin.ofNat Config.capacity (s.cap.changeCount.val - 1))) s)
         (fun u => u.response = some (.decoded true))) ∧
    (let s := (z3.setNow 10850).setCap { z3.cap with repeatCount := 0 }
     answers (exec .edge s) (fun e => e.msgPending = false ∧ e.msg = s.msg)) := by decide
/-- DisabledSendFails. -/
theorem witness_disabled : let s := (ready 9).setCfg { (ready 9).cfg with txEn := false }
    s.tx.state = .idle ∧ s.waiting = [] ∧ s.cfg.txEn = false := by decide
/-- SendRefusesArgumentsOutOfRange and AcceptedSendLoadsTheTransmitter: what both ask of the state. -/
theorem witness_send_state : (ready 9).tx.state = .idle ∧ (ready 9).waiting = [] ∧ (ready 9).cfg.txEn = true ∧
    getElem? (ready 9).catalog (1 - 1) = some (record 350 1 31 1 3 3 1) ∧
    getElem? (ready 9).catalog (6 - 1) = some (record 200 1 10 1 5 1 1) := by decide
/-- The arguments out of range: unit 0, length 0, 65, 33 with protocol 6, a code of 2^24 with the length 24; and the last
ones in range: length 64, 32 with protocol 6, a code of 2^24 - 1. -/
theorem witness_send_arguments :
    argRangeFails 1 0 24 1 = true ∧ argRangeFails 1 350 0 0 = true ∧ argRangeFails 1 350 65 1 = true ∧
    argRangeFails 6 200 33 1 = true ∧ argRangeFails 1 350 24 16777216 = true ∧ argRangeFails 1 350 64 1 = false ∧
    argRangeFails 6 200 32 1 = false ∧ argRangeFails 1 350 24 16777215 = false := by decide
/-- SentBitsAreTheCode and NexaBitsAreDoubled: a SEND that is accepted, of each kind. -/
theorem witness_sent : (∃ t, exec (.send (plain 5)) (ready 9) = .next t ∧ t.tx.state ≠ .idle ∧ t.tx.protocolId.toNat ≠ 6) ∧
    ∃ t, exec (.send { plain 6 with pv := true, proto := 6 }) (ready 9) = .next t ∧ t.tx.state ≠ .idle ∧
      t.tx.protocolId.toNat = 6 := ⟨⟨_, rfl, by decide, by decide⟩, ⟨_, rfl, by decide, by decide⟩⟩
/-- BusySendWaits: busy, and idle behind another. -/
theorem witness_busy : (quiet 0).tx.state ≠ .idle ∧ ((ready 0).setWaiting [plain 1]).waiting ≠ [] := by decide
/-- TxRiseStartsTheHighPhase and TxFallEndsTheSegment, at the first enabled instant, in each state. -/
theorem witness_tx_steps :
    (let s := sending .bits false 1000 350 1350
     s.tx.bitIdx.toNat < s.tx.bitLength.toNat ∧ s.tx.pin = false ∧
       s.tx.pendingDelay.toNat = (tsub s.now s.tx.segmentStart).toNat ∧ s.tx.protocolId.toNat = 1 ∧
       getElem? s.catalog (s.tx.protocolId.toNat - 1) = some (record 350 1 31 1 3 3 1)) ∧
    (let s := leading true 2000000 200 2000200
     s.tx.state = .leadSync ∧ s.tx.pin = true ∧ s.tx.pendingDelay.toNat = (tsub s.now s.tx.segmentStart).toNat ∧
       s.tx.protocolId.toNat = 6 ∧ getElem? s.catalog (s.tx.protocolId.toNat - 1) = some (record 200 1 10 1 5 1 1)) ∧
    (let s := sending .trailSync true 1005600 350 1005950
     s.tx.pin = true ∧ 1 ≤ s.tx.passLeft.toNat ∧ s.tx.pendingDelay.toNat = (tsub s.now s.tx.segmentStart).toNat) := by
  decide
/-- The trailing sync of the last pass, and the last bit of a pass. -/
theorem witness_tx_last :
    (let s := sending .trailSync true 0 350 350
     let l := s.setTx { s.tx with passLeft := 1 }
     answers (exec .txFallTrailSync l) (fun t => t.tx.state == .quiet && t.tx.quietStart == 350)) = true ∧
    (let s := sending .bits true 0 350 350
     let l := s.setTx { s.tx with bitIdx := 3 }
     answers (exec .txFallBits l) (fun t => t.tx.state == .trailSync && t.tx.bitIdx == 4)) = true := by decide
/-- TxDoneAnswersTheSend and OnlyDoneOrResetEndsATransmission. -/
theorem witness_done : (quiet 1522750).tx.state = .quiet ∧ (quiet 1522750).tx.pin = false ∧
    500000 ≤ (tsub (quiet 1522750).now (quiet 1522750).tx.quietStart).toNat ∧
    ∃ t, exec .txDone (quiet 1522750) = .next t ∧ t.tx.state = .idle := ⟨by decide, by decide, by decide, _, rfl, rfl⟩
/-- TxStepsAreRefusedUnlessEnabled: every pattern that has a step (test_code_patterns). -/
theorem witness_patterns : decode (.txPattern 0b0010) = .ok .txRiseLeadSync ∧ decode (.txPattern 0b1000) = .ok .txDone := by
  decide
/-- SegmentsLastTheirNominalTimes: a zero, a one, both syncs. -/
theorem witness_segments :
    (let s := sending .bits false 0 0 1000000
     s.tx.pin = false ∧ s.tx.bitIdx.toNat < s.tx.bitLength.toNat ∧
       s.tx.bits.getLsbD (s.tx.bitLength.toNat - 1 - s.tx.bitIdx.toNat) = false) ∧
    secondBit.tx.bits.getLsbD (secondBit.tx.bitLength.toNat - 1 - secondBit.tx.bitIdx.toNat) = true ∧
    secondBit.tx.pin = false ∧ (leading false 0 0 2000000).tx.pin = false ∧
    (sending .trailSync false 0 0 0).tx.pin = false := by decide
/-- SegmentsAreRefusedUnlessSelected: selected and not. -/
theorem witness_not_selected : exec .segL1 (sending .bits false 0 0 1000000) = .refused .notEnabled ∧
    exec .segSync (sending .trailSync true 0 0 0) = .refused .notEnabled := ⟨rfl, rfl⟩
/-- MissingRecordsAndBitsAreFaults: protocol 7 at an enabled rise, protocol 0 at an enabled fall, no current bit, and
protocol 0 at a selected segment. -/
theorem witness_missing :
    (let s := sending .bits false 0 350 350
     let l := s.setTx { s.tx with protocolId := 7 }
     l.tx.pin = false ∧ l.tx.bitIdx.toNat < l.tx.bitLength.toNat ∧ 7 ≤ l.tx.protocolId.toNat ∧
       l.tx.pendingDelay.toNat ≤ (tsub l.now l.tx.segmentStart).toNat) ∧
    (let s := sending .trailSync true 0 350 350
     let l := s.setTx { s.tx with protocolId := 0 }
     l.tx.pin = true ∧ l.tx.protocolId.toNat = 0 ∧ l.tx.pendingDelay.toNat ≤ (tsub l.now l.tx.segmentStart).toNat) ∧
    (let s := sending .bits false 0 350 350
     let l := s.setTx { s.tx with bitIdx := 4 }
     l.tx.bitLength.toNat ≤ l.tx.bitIdx.toNat ∧ l.tx.pendingDelay.toNat ≤ (tsub l.now l.tx.segmentStart).toNat) ∧
    (let s := sending .trailSync false 0 0 0
     let l := s.setTx { s.tx with protocolId := 0 }
     l.tx.state = .trailSync ∧ l.tx.pin = false ∧ l.tx.protocolId.toNat = 0 ∧
       exec .segSync l = .fault .noSuchRecord) := by
  refine ⟨by decide, by decide, by decide, by decide, by decide, by decide, rfl⟩
/-- TransmitterIgnoresEverythingElse: the same step under another configuration and receiver. -/
theorem witness_tx_only : let s := sending .bits false 0 0 1000000; let s' := (s.setCfg HostConfig.reset).setCap z3.cap
    s'.tx = s.tx ∧ s'.now = s.now ∧ s' ≠ s ∧ (∃ t, exec .txRiseBits s = .next t) := ⟨rfl, rfl, by decide, _, rfl⟩
/-- ATransmissionLastsItsExactLength: V80 at its acceptance, and V81 (protocol 6). -/
theorem witness_transmission :
    (sending .bits false 0 0 1000000).tx.Ok ∧ (leading false 0 0 2000000).tx.Ok ∧
    (let s := sending .bits false 0 0 1000000
     s.turns = [] ∧ s.tx.pin = false ∧ s.tx.bitIdx = 0 ∧ s.tx.state = passStart s.tx ∧
       getElem? s.catalog (s.tx.protocolId.toNat - 1) = some (record 350 1 31 1 3 3 1)) ∧
    (let s := leading false 0 0 2000000
     s.turns = [] ∧ s.tx.pin = false ∧ s.tx.bitIdx = 0 ∧ s.tx.state = passStart s.tx ∧
       getElem? s.catalog (s.tx.protocolId.toNat - 1) = some (record 200 1 10 1 5 1 1)) :=
  ⟨by constructor <;> decide, by constructor <;> decide, by decide, by decide⟩

end Sys2Proof.Tests
end

section
/-! The state groups of R20 and the operations that own them: what each operation can write when it answers a next state,
and from that the owner of each group. -/

namespace Sys2Proof.Machine

/-- The transmitter's steps, and the segments made of them. -/
def transmitterSteps : List Instr :=
  [.txRiseLeadSync, .txFallLeadSync, .txRiseBits, .txFallBits, .txRiseTrailSync, .txFallTrailSync, .txDone,
    .segL0, .segL1, .segSync]

/-- A step or a segment writes the transmitter, the response port and, a segment, the counter (R208 to R215). -/
theorem exec_transmitterStep_frame {i : Instr} {s t : State} (hi : i ∈ transmitterSteps) (h : exec i s = .next t) :
    t = { s with tx := t.tx, now := t.now, response := t.response } := by
  have rise {st : TxState} (h : txRise st s = .next t) :
      t = { s with tx := t.tx, now := t.now, response := t.response } := by rw [txRise_frame h]; rfl
  have fall {st : TxState} (h : txFall st s = .next t) :
      t = { s with tx := t.tx, now := t.now, response := t.response } := by rw [txFall_frame h]; rfl
  have doneStep (h : execTxDone s = .next t) :
      t = { s with tx := t.tx, now := t.now, response := t.response } := by rw [execTxDone_frame h]; rfl
  have seg {k : SegKind} {st : TxState} (h : segment k st s = .next t) :
      t = { s with tx := t.tx, now := t.now, response := t.response } := by rw [segment_frame h]; rfl
  simp only [transmitterSteps, List.mem_cons, List.not_mem_nil, or_false] at hi
  rcases hi with rfl | rfl | rfl | rfl | rfl | rfl | rfl | rfl | rfl | rfl
  exacts [rise h, fall h, rise h, fall h, rise h, fall h, doneStep h, seg h, seg h, seg h]

/-- What each operation but RESET may make of the state `s`: its own group is new, the groups of the others are those of `s`
(R20). -/
inductive OwnedWrite (s : State) : Instr → State → Prop where
  | edge (c : Capture) (m : Message) (p : Bool) (r : Option Response) :
      OwnedWrite s .edge { s with cap := c, msg := m, msgPending := p, response := r }
  | decodeTry (p : ProtoId) (cc : Fin Config.capacity) (m : Message) (b : Bool) (r : Option Response) :
      OwnedWrite s (.decodeTry p cc) { s with msg := m, msgPending := b, response := r }
  | msgtake (p : Bool) (r : Option Response) : OwnedWrite s .msgtake { s with msgPending := p, response := r }
  | send (a : SendArgs) (x : Transmitter) (w : List SendArgs) (r : Option Response) :
      OwnedWrite s (.send a) { s with tx := x, waiting := w, response := r }
  | transmitterStep {i : Instr} (hi : i ∈ transmitterSteps) (x : Transmitter) (n : Time) (r : Option Response) :
      OwnedWrite s i { s with tx := x, now := n, response := r }
  | regwr (idx : BitVec 8) (v : PortValue) (c : HostConfig) (r : Option Response) :
      OwnedWrite s (.regwr idx v) { s with cfg := c, response := r }
  | response (i : Instr) (r : Option Response) : OwnedWrite s i { s with response := r }

/-- Every operation but RESET writes its own group only (R20). -/
theorem exec_ownedWrite {i : Instr} {s t : State} (h : exec i s = .next t) (hr : i ≠ .reset) : OwnedWrite s i t := by
  have step (hi : i ∈ transmitterSteps) : OwnedWrite s i t := by
    rw [exec_transmitterStep_frame hi h]
    exact .transmitterStep hi ..
  cases i with
  | edge =>
    rcases execEdge_frame h with ⟨c, rfl⟩ | ⟨c, m, rfl, -, -⟩
    · exact .edge c s.msg s.msgPending none
    · exact .edge c m true none
  | decodeTry p cc =>
    rcases execDecodeTry_frame h with rfl | ⟨m, rfl, -, -⟩
    · exact .response ..
    · exact .decodeTry p cc m true _
  | send a =>
    rw [execSend_frame h]
    exact .send ..
  | msgtake =>
    cases h
    exact .msgtake ..
  | regwr idx v =>
    cases h
    exact .regwr ..
  | nop | regrd _ | catrd _ | matchDur _ _ _ =>
    cases h
    exact .response ..
  | reset => exact absurd rfl hr
  | txRiseLeadSync | txFallLeadSync | txRiseBits | txFallBits | txRiseTrailSync | txFallTrailSync | txDone
  | segL0 | segL1 | segSync => exact step (by decide)

end Sys2Proof.Machine

open Sys2Proof.Machine

/-- Settles O49, by what each operation can write: a group that differs is among the writes of its owner. -/
theorem stateIsWrittenByItsOwner : Obligations.StateIsWrittenByItsOwner := by
  intro i s t h hr
  have same {α : Type} {a : α} {P : Prop} (hne : a ≠ a) : P := absurd rfl hne
  cases exec_ownedWrite h hr with
  | edge => exact ⟨fun _ => rfl, fun _ => .inl rfl, fun _ => .inr (.inl rfl), same, same, rfl⟩
  | decodeTry p cc =>
    exact ⟨same, fun _ => .inr ⟨p, cc, rfl⟩, fun _ => .inr (.inr ⟨p, cc, rfl⟩), same, same, rfl⟩
  | msgtake => exact ⟨same, same, fun _ => .inl rfl, same, same, rfl⟩
  | send a => exact ⟨same, same, same, fun _ => .inl ⟨a, rfl⟩, same, rfl⟩
  | transmitterStep hi => exact ⟨same, same, same, fun _ => .inr hi, same, rfl⟩
  | regwr idx v => exact ⟨same, same, same, same, fun _ => ⟨idx, v, rfl⟩, rfl⟩
  | response => exact ⟨same, same, same, same, same, rfl⟩
end

section
/-! The catalog indices outside 1 .. 6 (R67): the checks of SEND stop at one, and a SEND that its checks refuse fails in its
own step. -/

namespace Sys2Proof.Machine

/-- An enabled SEND whose effective protocol has no record stops at the second check (R67, R199). -/
theorem resolveSend_of_bad_index {cfg : HostConfig} {cat : Vector Protocol Config.nProtocols} {a : SendArgs}
    (hen : cfg.txEn = true) (hp : (effectiveProto cfg a).toNat = 0 ∨ 7 ≤ (effectiveProto cfg a).toNat) :
    resolveSend cfg cat a = .error .failUnknownProtocol := by
  have hne : ¬ cfg.txEn = false := by simp [hen]
  simp only [resolveSend, if_neg hne, protocolAt_of_bad hp]

/-- A SEND that reaches an idle transmitter and that its checks refuse answers the refusal (R195, R205). -/
theorem execSend_of_refused {a : SendArgs} {s : State} {r : TxResult} (hidle : s.tx.state = .idle)
    (hwait : s.waiting = []) (hr : resolveSend s.cfg s.catalog a = .error r) :
    execSend a s = .next (s.failSend r) := by
  rw [execSend, if_pos ⟨hidle, hwait⟩, acceptSend, hr]

end Sys2Proof.Machine

open Sys2Proof.Machine

/-- Settles O16: there is no record at such an index, so CATRD answers none and the checks of SEND stop there. -/
theorem badCatalogIndexIsNeverARecord : Obligations.BadCatalogIndexIsNeverARecord := by
  intro p s hbad
  constructor
  · show execCatrd p s = _
    rw [execCatrd, protocolAt_of_bad hbad]
    rfl
  · rintro a hidle hwait hen rfl
    exact execSend_of_refused hidle hwait (resolveSend_of_bad_index hen hbad)
end

section
/-! The reserved command words (R93): the decoder gives a word no operation exactly when a bit it requires to be 0 is 1 or
its `op` is that of no command, and the turn that presents such a word is refused. -/

namespace Sys2Proof

/-- R93, in the fields of format H: the words that are reserved. -/
def ReservedWord (w : CommandWord) : Prop :=
  6 ≤ (opField w).toNat ∨ rsvField w ≠ 0 ∨ (((opField w).toNat = 0 ∨ (opField w).toNat = 4) ∧ belowOp w ≠ 0)
    ∨ (((opField w).toNat = 2 ∨ (opField w).toNat = 3) ∧ aboveIdx w ≠ 0) ∨ ((opField w).toNat = 3 ∧ codeField w ≠ 0)
    ∨ ((opField w).toNat = 5 ∧ (aboveProto w ≠ 0 ∨ belowProto w ≠ 0))

/-! The bits that a command other than SEND requires to be 0 include `rsv`. -/

theorem rsvField_zero_of_belowOp {w : CommandWord} (h : belowOp w = 0) : rsvField w = 0 :=
  extractLsb'_zero_of_covered h (by decide) (by decide)

theorem rsvField_zero_of_aboveIdx {w : CommandWord} (h : aboveIdx w = 0) : rsvField w = 0 :=
  extractLsb'_zero_of_covered h (by decide) (by decide)

theorem rsvField_zero_of_aboveProto {w : CommandWord} (h : aboveProto w = 0) : rsvField w = 0 :=
  extractLsb'_zero_of_covered h (by decide) (by decide)

/-- A check that answers an operation when `c` holds answers none exactly when `c` fails. -/
theorem check_ne_ok_iff {c : Prop} [Decidable c] {x : Instr} {e : Reject} :
    (∀ i, (if c then .ok x else .error e : Except Reject Instr) ≠ .ok i) ↔ ¬ c := by
  by_cases hc : c
  · simp [hc]
  · simp [hc]

/-- The decoder gives no operation for a reserved word, and for no other (R93): for each `op`, its command's one check
fails, and `rsv` is 0 when the check passes. -/
theorem reservedWord_iff_decodeCommand_ne_ok (w : CommandWord) :
    ReservedWord w ↔ ∀ i, decodeCommand w ≠ .ok i := by
  have hbelow := @rsvField_zero_of_belowOp w
  have hidx := @rsvField_zero_of_aboveIdx w
  have hproto := @rsvField_zero_of_aboveProto w
  unfold ReservedWord decodeCommand
  generalize (opField w).toNat = op
  match op with
  | 0 | 4 => simpa [check_ne_ok_iff] using mt hbelow
  | 1 => simp [check_ne_ok_iff]
  | 2 => simpa [check_ne_ok_iff] using mt hidx
  | 3 => simpa [check_ne_ok_iff, not_and_or, -not_and] using fun h => Or.inl (mt hidx h)
  | 5 => simpa [check_ne_ok_iff, not_and_or, -not_and] using fun h => Or.inl (mt hproto h)
  | n + 6 => simp

end Sys2Proof

namespace Sys2Proof.Machine

/-- A turn with a command word that the decoder gives no operation is refused (R93). -/
theorem takeTurn_undecoded {s : State} {t : Turn} {rest : List Turn} {w : CommandWord}
    (hw : t.what = .input (.command w)) (hd : ∀ i, decode (.input (.command w)) ≠ .ok i) :
    takeTurn t rest s = .refused (.reservedCommand w) := by
  unfold takeTurn takeStimulus
  rw [hw]
  dsimp only
  cases h : decode (.input (.command w)) with
  | ok i => exact absurd h (hd i)
  | error e => rfl

end Sys2Proof.Machine

open Sys2Proof Sys2Proof.Machine

/-- Settles O4: the decoder accepts exactly the words that are not reserved, and the step, which is the turn, refuses the
others. -/
theorem reservedCommandWordsAreRefused : Obligations.ReservedCommandWordsAreRefused := by
  intro w
  have hiff : ReservedWord w ↔ ∀ i, decode (.input (.command w)) ≠ .ok i := reservedWord_iff_decodeCommand_ne_ok w
  refine ⟨hiff, fun hres s t rest hs hw hfirst => ?_⟩
  calc step s = takeTurn t rest s := nextStep_turn hs fun k hk => txGoesFirst_false (hfirst k hk)
    _ = .refused (.reservedCommand w) := takeTurn_undecoded hw (hiff.mp hres)
end

section
/-! What an enabled edge leaves in the ring (R131, R140). -/

namespace Sys2Proof.Machine

/-- EDGE with the receiver enabled is the whole step (R132). -/
theorem execEdge_enabled {s : State} (hen : s.cfg.rxEn = true) : execEdge s = .next (edgeStep s).silent := by
  rw [execEdge, if_pos hen]

end Sys2Proof.Machine

open Sys2Proof.Machine

/-- Settles O29: whichever way the edge goes, it ends by storing its duration in a ring that is not full and whose entries
are the old ones. -/
theorem everyEdgeLeavesItsDurationNewest : Obligations.EveryEdgeLeavesItsDurationNewest := by
  intro s hen
  obtain ⟨c, hcap, hlt, hstamp, hframe, -⟩ := edgeStep_cap s
  have hnewest : (c.store (edgeDuration s)).changeCount.val - 1 = c.changeCount.val := by
    rw [Capture.store_count hlt, Nat.add_sub_cancel]
  refine ⟨(edgeStep s).silent, execEdge_enabled hen, ?_⟩
  rw [State.silent_cap, hcap, hnewest, Capture.store_count hlt, Capture.store_newest hlt]
  refine ⟨hstamp, Nat.le_add_left .., hlt, tsub_toNat .., fun j hj => ?_⟩
  rw [Capture.store_other hj, hframe]
end

section
/-! MATCH as the test over the integers (R157), and what DECODE answers from the accumulator over the frame's pairs (R155). -/

namespace Sys2Proof.Machine

/-- MATCH holds exactly when the integer distance from the expected duration is below the tolerance (R80, R157). -/
theorem matchDuration_iff (tol unit ratio d : Nat) :
    matchDuration tol unit ratio d = true ↔ 100 * |(d : ℤ) - (ratio : ℤ) * (unit : ℤ)| < (unit : ℤ) * (tol : ℤ) := by
  rw [matchDuration, decide_eq_true_iff, ← Int.ofNat_lt]
  push_cast [absdiff_cast]
  rfl

section
variable {r : Protocol} {p : Nat} {f : Vector Duration Config.capacity} {tol cc : Nat} {now : Time}

/-- A frame longer than 6 whose pairs give a code other than 0 decodes (R155, R162, R163, R166). -/
theorem decodeFrame_of_code {code : Nat} (hcode : readCode r tol (derivedUnit r f) (dataPairs f cc) 0 = some code)
    (hlen : 6 < cc) (hne : code ≠ 0) :
    decodeFrame r p f tol cc now =
      some { code := BitVec.ofNat Config.codeW code, timestamp := now, bitLength := BitVec.ofNat Config.msgLenW (cc / 2),
             pulseUnitUs := BitVec.ofNat Config.durW (derivedUnit r f), protocolId := BitVec.ofNat Config.protoIdW p } := by
  simp only [decodeFrame, hcode]
  exact if_pos ⟨hlen, hne⟩

/-- A frame that gives no code, or is too short, or gives the code 0 does not decode (R161, R162). -/
theorem decodeFrame_eq_none
    (h : ∀ code, readCode r tol (derivedUnit r f) (dataPairs f cc) 0 = some code → 6 < cc → code = 0) :
    decodeFrame r p f tol cc now = none := by
  rw [Option.eq_none_iff_forall_ne_some]
  intro m hm
  obtain ⟨code, hcode, -, hlen, hne, -⟩ := decodeFrame_some hm
  exact hne (h code hcode hlen)

end

end Sys2Proof.Machine

open Sys2Proof.Machine

/-- Settles O19: the accumulator over the frame's pairs is the fold of the statement when every pair is a bit, and none
otherwise (`readCode_map`); with it each outcome of DECODE follows. -/
theorem decodeReadsTheFrame : Obligations.DecodeReadsTheFrame := by
  intro p cc s r hp1 hp6 hr unit fits zero one code
  have hexec : exec (.decodeTry p cc) s = _ := execDecodeTry_of_record (cc := cc) ((protocolAt_of_le hp1 hp6).trans hr)
  have hread : readCode r s.cfg.tolerancePercent.toNat unit (dataPairs s.cap.frame cc.val) 0 =
      if ∀ k, k < cc.val / 2 → zero k = true ∨ one k = true then some code else none :=
    (readCode_map ..).trans (if_congr (forall_congr' fun _ => imp_congr_left List.mem_range) rfl rfl)
  split_ifs with hsucc
  · obtain ⟨hbits, hlen, hne⟩ := hsucc
    rw [if_pos hbits] at hread
    rwa [decodeFrame_of_code hread hlen hne, BitVec.ofNat_toNat, BitVec.setWidth_eq] at hexec
  · rwa [decodeFrame_eq_none] at hexec
    intro c hc hlen
    by_contra hne
    obtain ⟨hbits, hcode⟩ := Option.ite_none_right_eq_some.mp (hread.symm.trans hc)
    exact hsucc ⟨hbits, hlen, by rwa [Option.some.inj hcode]⟩

/-- Settles O18, with the truth of MATCH for the answer. -/
theorem matchIsTheStrictWindow : Obligations.MatchIsTheStrictWindow :=
  fun _ _ _ _ => ⟨_, rfl, matchDuration_iff ..⟩
end

section
/-! The hand-off of a message (43_message_handoff.md): what MSGTAKE writes, which edges commit a message, and that an edge
does the same to the ring and the message whether or not a MSGTAKE came just before it. -/

namespace Sys2Proof.Machine

/-- MSGTAKE where nothing is pending: the clearing changes nothing (R183). -/
theorem State.clearPending_eq_self {s : State} (h : s.msgPending = false) : s.clearPending = s := by
  rw [State.clearPending, ← h]

/-- EDGE with the receiver disabled drops the event (R130). -/
theorem execEdge_disabled {s : State} (hen : ¬ s.cfg.rxEn = true) : execEdge s = .next s.silent := by
  rw [execEdge, if_neg hen]

/-! ## Which edges decode -/

/-- The receiver is enabled, the edge closes the second matching long gap, and an attempt succeeds on the frame that ends,
one entry shorter (R130 to R137). -/
def EdgeDecodes (s : State) : Prop :=
  s.cfg.rxEn = true ∧ 5000 < (edgeDuration s).toNat ∧ absdiff (edgeDuration s).toNat (frameAt s.cap.frame 0).toNat < 200 ∧
    s.cap.repeatCount = 1 ∧ ∃ p m, 1 ≤ p ∧ p ≤ 6 ∧ decodeAttempt s (s.cap.changeCount.val - 1) p = some m

/-- A DECODE called by itself answers success exactly when the attempt of an edge on that frame succeeds (R155). -/
theorem execDecodeTry_success_iff {p : ProtoId} {cc : Fin Config.capacity} {s : State} :
    (∃ u, execDecodeTry p cc s = .next u ∧ u.response = some (.decoded true)) ↔
      ∃ m, decodeAttempt s cc.val p.toNat = some m := by
  cases hr : protocolAt s.catalog p.toNat with
  | none => simp [execDecodeTry, decodeAttempt, hr]
  | some r =>
    cases hd : decodeFrame r p.toNat s.cap.frame s.cfg.tolerancePercent.toNat cc.val s.now <;>
      simp [execDecodeTry_of_record hr, decodeAttempt, hr, hd]

/-- `EdgeDecodes` in the DECODEs of the six protocols: the id fits its register, and the shorter frame the ring. -/
theorem edgeDecodes_iff_decodeTry (s : State) :
    EdgeDecodes s ↔ s.cfg.rxEn = true ∧ 5000 < (edgeDuration s).toNat ∧
      absdiff (edgeDuration s).toNat (frameAt s.cap.frame 0).toNat < 200 ∧ s.cap.repeatCount = 1 ∧
      ∃ p u, 1 ≤ p ∧ p ≤ 6 ∧ execDecodeTry (BitVec.ofNat 8 p) (Fin.ofNat _ (s.cap.changeCount.val - 1)) s = .next u ∧
        u.response = some (.decoded true) := by
  have hcc : (Fin.ofNat Config.capacity (s.cap.changeCount.val - 1)).val = s.cap.changeCount.val - 1 := by
    have hlt : s.cap.changeCount.val < 67 + 1 := s.cap.changeCount.isLt
    exact Nat.mod_eq_of_lt (show _ < 67 by omega)
  have hid {p : Nat} (h6 : p ≤ 6) : (BitVec.ofNat 8 p).toNat = p := Nat.mod_eq_of_lt (by omega)
  refine and_congr_right' <| and_congr_right' <| and_congr_right' <| and_congr_right' <| exists_congr fun p => ?_
  simp only [exists_and_left]
  refine and_congr_right' <| and_congr_right fun h6 => ?_
  rw [execDecodeTry_success_iff, hcc, hid h6]

/-! ## What an edge makes of the flag -/

/-- The attempts raise the flag exactly when one of them succeeds (R137, R163). -/
theorem tryProtocols_msgPending (s : State) (cc : Nat) :
    (tryProtocols s cc).msgPending = true ↔
      s.msgPending = true ∨ ∃ p m, 1 ≤ p ∧ p ≤ 6 ∧ decodeAttempt s cc p = some m := by
  rcases tryProtocols_cases s cc with ⟨p, m, h1, h6, hm, -, e⟩ | ⟨hnone, e⟩
  · simpa only [e, State.commitMessage_msgPending, true_iff] using Or.inr ⟨p, m, h1, h6, hm⟩
  · rw [e, or_iff_left]
    rintro ⟨p, m, h1, h6, hm⟩
    exact Option.some_ne_none m (hm.symm.trans (hnone p h1 h6))

/-- An edge raises the flag exactly when it decodes, and never lowers it: on the ways through its step that make no attempt
the flag is as it was (R132, R163). -/
theorem execEdge_msgPending {s e : State} (h : execEdge s = .next e) :
    e.msgPending = true ↔ s.msgPending = true ∨ EdgeDecodes s := by
  by_cases hen : s.cfg.rxEn = true
  case neg =>
    rw [execEdge_disabled hen] at h
    cases h
    exact (or_iff_left fun hd => hen hd.1).symm
  rw [execEdge_enabled hen] at h
  cases h
  rw [State.silent_msgPending]
  by_cases hlong : 5000 < (edgeDuration s).toNat
  case neg =>
    rw [edgeStep_short (Nat.le_of_not_lt hlong)]
    exact (or_iff_left fun ⟨_, hl, _⟩ => hlong hl).symm
  by_cases hmatch : absdiff (edgeDuration s).toNat (frameAt s.cap.frame 0).toNat < 200
  case neg =>
    rw [edgeStep_unmatched hlong (Nat.le_of_not_lt hmatch)]
    exact (or_iff_left fun ⟨_, _, hm, _⟩ => hmatch hm).symm
  by_cases hsecond : s.cap.repeatCount = 1
  case neg =>
    rw [edgeStep_counted hlong hmatch hsecond]
    exact (or_iff_left fun ⟨_, _, _, hr, _⟩ => hsecond hr).symm
  rw [edgeStep_second hlong hmatch hsecond, State.setCap_msgPending, tryProtocols_msgPending]
  simp only [EdgeDecodes, hen, hlong, hmatch, hsecond, true_and, decodeAttempt_counters, State.setCap_msgPending]

/-! ## An edge right after a MSGTAKE -/

/-- EDGE on two states that agree in all it reads makes the same ring of both, and commits the same message or none (R20,
R130, R132). -/
theorem execEdge_effect {s s' e : State} (hcap : s'.cap = s.cap) (hcat : s'.catalog = s.catalog) (hnow : s'.now = s.now)
    (hcfg : s'.cfg = s.cfg) (he : execEdge s = .next e) :
    (∃ c, e = (s.setCap c).silent ∧ execEdge s' = .next (s'.setCap c).silent) ∨
      ∃ c x, e = ((s.setCap c).commitMessage x).silent ∧ execEdge s' = .next ((s'.setCap c).commitMessage x).silent ∧
        x.Decoded ∧ x.timestamp = s.now := by
  by_cases hen : s.cfg.rxEn = true
  · rw [execEdge_enabled hen] at he
    cases he
    rw [execEdge_enabled (hcfg ▸ hen)]
    rcases edgeStep_effect hcap hcat hnow (congrArg _ hcfg) with ⟨c, hs, hs'⟩ | ⟨c, x, hs, hs', hx⟩
    · exact .inl ⟨c, by rw [hs], by rw [hs']⟩
    · exact .inr ⟨c, x, by rw [hs], by rw [hs'], hx⟩
  · rw [execEdge_disabled hen] at he
    cases he
    rw [execEdge_disabled (hcfg ▸ hen)]
    exact .inl ⟨s.cap, rfl, by rw [← hcap]; rfl⟩

/-- An edge right after a MSGTAKE: when it decodes it ends in the state it ends in without the MSGTAKE; otherwise that state
keeps the registers, and its flag stays cleared (R187). -/
theorem execEdge_clearPending {s e : State} (r : Response) (he : execEdge s = .next e) :
    (EdgeDecodes s ∧ e.msg.Decoded ∧ e.msg.timestamp = s.now ∧ execEdge (s.clearPending.respond r) = .next e) ∨
      (¬ EdgeDecodes s ∧ e.msg = s.msg ∧ execEdge (s.clearPending.respond r) = .next e.clearPending) := by
  have hflag {t : State} (ht : execEdge (s.clearPending.respond r) = .next t) : t.msgPending = true ↔ EdgeDecodes s :=
    (execEdge_msgPending ht).trans (or_iff_right Bool.false_ne_true)
  rcases execEdge_effect (s := s) (s' := s.clearPending.respond r) rfl rfl rfl rfl he with
    ⟨c, rfl, ht⟩ | ⟨c, x, rfl, ht, hx, hnow⟩
  · exact .inr ⟨fun hd => Bool.false_ne_true ((hflag ht).mpr hd), rfl, ht⟩
  · exact .inl ⟨(hflag ht).mp rfl, hx, hnow, ht⟩

end Sys2Proof.Machine

open Sys2Proof.Machine

/-- Settles O30: MSGTAKE is the clearing of the flag with the old flag and registers answered, and clearing a flag that is 0
changes nothing. -/
theorem msgtakeTakesTheMessageOnce : Obligations.MsgtakeTakesTheMessageOnce := by
  refine ⟨by decide, fun s => ⟨rfl, ?_, fun hnone => ?_⟩⟩
  · rintro t ⟨⟩
    rfl
  · show Host.Outcome.next (s.clearPending.respond (.message s.msgPending s.msg)) = .next (s.respond _)
    rw [State.clearPending_eq_self hnone, hnone]

/-- Settles O31: MSGTAKE changes nothing that an edge reads, so the edge decodes in both orders or in neither, and it raises
the flag exactly when it decodes. -/
theorem msgtakeAndEdgeInEitherOrder : Obligations.MsgtakeAndEdgeInEitherOrder := by
  intro s e he d try_ decodes
  have hdec : EdgeDecodes s ↔ decodes := edgeDecodes_iff_decodeTry s
  rw [← hdec]
  have hflag : e.msgPending = true ↔ s.msgPending = true ∨ EdgeDecodes s := execEdge_msgPending he
  rcases execEdge_clearPending (.message s.msgPending s.msg) he with ⟨hd, hx, hnow, ht⟩ | ⟨hd, hkeep, ht⟩
  · obtain ⟨hcode, -⟩ := (Message.decoded_iff _).mp hx
    exact ⟨_, _, e, rfl, rfl, ht, rfl, rfl, rfl, iff_of_true (hflag.mpr (.inr hd)) hd, hflag, fun _ => ⟨hcode, hnow⟩,
      absurd hd, rfl, rfl, rfl, rfl⟩
  · exact ⟨_, _, e.clearPending, rfl, rfl, ht, rfl, rfl, rfl, iff_of_false Bool.false_ne_true hd, hflag,
      fun h => absurd h hd, fun _ => hkeep, rfl, rfl, rfl, rfl⟩
end

section
/-! The argument range of SEND (R201): the effective unit and length (R198, R200), the range test on them, and the check of
SEND that stops there. -/

namespace Sys2Proof.Machine

/-- R198, as a number: an explicit unit, else a default that is not 0, else the record's. -/
theorem effectiveUnit_toNat (cfg : HostConfig) (r : Protocol) (a : SendArgs) :
    (effectiveUnit cfg r a).toNat = if a.uv then a.unit.toNat
      else if cfg.txDefPulse ≠ 0 then cfg.txDefPulse.toNat else r.pulseUnitUs.toNat := by
  rw [effectiveUnit, apply_ite BitVec.toNat, apply_ite BitVec.toNat, baseUnitBits_toNat]

/-- R200, with its two reasons for 32 bits in one condition. -/
theorem effectiveLen_eq (p : Nat) (a : SendArgs) :
    effectiveLen p a = if a.lv then a.len.toNat else if p = 6 ∨ 16777216 < a.code.toNat then 32 else 24 := by
  rw [effectiveLen, ite_or]

/-- The range test (R201). -/
theorem argRangeFails_iff {p u l code : Nat} :
    argRangeFails p u l code = true ↔ u = 0 ∨ l = 0 ∨ 64 < l ∨ (p = 6 ∧ 32 < l) ∨ 2 ^ l ≤ code := by
  simp only [argRangeFails, Bool.or_eq_true, Bool.and_eq_true, decide_eq_true_eq, Nat.lt_one_iff, or_assoc,
    Config.maxLen_eq, Config.nexaProto_eq, Config.maxNexaLen_eq]

/-- An enabled SEND whose protocol has a record and whose arguments are out of range stops at the third check (R201). -/
theorem resolveSend_of_argRange {cfg : HostConfig} {cat : Vector Protocol Config.nProtocols} {a : SendArgs} {r : Protocol}
    (hen : cfg.txEn = true) (hr : protocolAt cat (effectiveProto cfg a).toNat = some r)
    (hbad : argRangeFails (effectiveProto cfg a).toNat (effectiveUnit cfg r a).toNat
      (effectiveLen (effectiveProto cfg a).toNat a) a.code.toNat = true) :
    resolveSend cfg cat a = .error .failArgRange := by
  have hne : ¬ cfg.txEn = false := by simp [hen]
  simp only [resolveSend, if_neg hne, hr, if_pos hbad]

end Sys2Proof.Machine

open Sys2Proof.Machine

/-- Settles O34: the unit and the length of the statement are the effective ones, so the range test fails. -/
theorem sendRefusesArgumentsOutOfRange : Obligations.SendRefusesArgumentsOutOfRange := by
  intro s a r hidle hwait hen p h1 h6 hr u l hbad
  have hunit : (effectiveUnit s.cfg r a).toNat = u := effectiveUnit_toNat ..
  have hlen : effectiveLen p a = l := effectiveLen_eq ..
  have hrange : argRangeFails p (effectiveUnit s.cfg r a).toNat (effectiveLen p a) a.code.toNat = true := by
    rw [hunit, hlen]
    exact argRangeFails_iff.mpr hbad
  exact execSend_of_refused hidle hwait (resolveSend_of_argRange hen ((protocolAt_of_le h1 h6).trans hr) hrange)
end

section
/-! The steps of the transmitter (R213 to R215): the segment it is at and the ratios of that segment, the delay that a
transition makes pending, and what the sequencer does after a segment. -/

namespace Sys2Proof.Machine

/-! ## The segment -/

/-- The transmitter is in the middle of a pass, with a current bit when it sends one. -/
def Transmitter.AtSegment (t : Transmitter) : Prop :=
  t.state = .leadSync ∨ (t.state = .bits ∧ t.bitIdx.toNat < t.bitLength.toNat) ∨ t.state = .trailSync

/-- Which of three ratios the state and the current bit select (R208 to R210). -/
def Transmitter.selectRatio (t : Transmitter) (zero one sync : Ratio) : Ratio :=
  if t.state = .bits then if t.bits.getLsbD (t.bitLength.toNat - 1 - t.bitIdx.toNat) then one else zero else sync

/-- There the segment has a kind, and the ratios of that kind are the selected ones. -/
theorem Transmitter.AtSegment.exists_kind {t : Transmitter} (h : t.AtSegment) (r : Protocol) :
    ∃ k, segKind t = some k ∧ highRatio r k = (t.selectRatio r.zeroHigh r.oneHigh r.syncHigh).toNat ∧
      lowRatio r k = (t.selectRatio r.zeroLow r.oneLow r.syncLow).toNat := by
  rcases h with hst | ⟨hst, hlt⟩ | hst
  · simp only [segKind, selectRatio, hst]
    exact ⟨.sync, rfl, rfl, rfl⟩
  · simp only [segKind, currentBit, selectRatio, hst, if_pos hlt]
    cases t.bits.getLsbD (t.bitLength.toNat - 1 - t.bitIdx.toNat) with
    | false => exact ⟨.zero, rfl, rfl, rfl⟩
    | true => exact ⟨.one, rfl, rfl, rfl⟩
  · simp only [segKind, selectRatio, hst]
    exact ⟨.sync, rfl, rfl, rfl⟩

/-- The operation whose pattern fits one of those states is `f` of that state there: `f` is TX.RISE or TX.FALL. -/
theorem exec_atSegment {f : TxState → State → Result} {lead bit trail i : Instr} {s : State}
    (hi : (i = lead ∧ s.tx.state = .leadSync) ∨
      (i = bit ∧ s.tx.state = .bits ∧ s.tx.bitIdx.toNat < s.tx.bitLength.toNat) ∨
      (i = trail ∧ s.tx.state = .trailSync))
    (hlead : exec lead s = f .leadSync s) (hbit : exec bit s = f .bits s) (htrail : exec trail s = f .trailSync s) :
    s.tx.AtSegment ∧ exec i s = f s.tx.state s := by
  rcases hi with ⟨rfl, hst⟩ | ⟨rfl, hst, hlt⟩ | ⟨rfl, hst⟩
  · exact ⟨.inl hst, hst ▸ hlead⟩
  · exact ⟨.inr (.inl ⟨hst, hlt⟩), hst ▸ hbit⟩
  · exact ⟨.inr (.inr hst), hst ▸ htrail⟩

/-- `pending_delay_us` holds the product of a ratio and a unit exactly (R45). -/
theorem delay_toNat (ρ : Ratio) (u : PulseUnit) :
    (BitVec.ofNat Config.delayW (ρ.toNat * u.toNat)).toNat = ρ.toNat * u.toNat :=
  Nat.mod_eq_of_lt (delay_lt ρ u)

/-! ## The transitions, where they are enabled -/

section
variable {s : State} {r : Protocol} (hseg : s.tx.AtSegment)
  (hover : s.tx.pendingDelay.toNat ≤ (tsub s.now s.tx.segmentStart).toNat)
  (hr : protocolAt s.catalog s.tx.protocolId.toNat = some r)
include hseg hover hr

/-- An enabled TX.RISE, with the high ratio selected (R213). -/
theorem txRise_of_enabled (hpin : s.tx.pin = false) :
    txRise s.tx.state s = .next (s.setTx (s.tx.rise
      ((s.tx.selectRatio r.zeroHigh r.oneHigh r.syncHigh).toNat * s.tx.pulseUnitUs.toNat) s.now)).silent := by
  obtain ⟨k, hk, hhigh, -⟩ := hseg.exists_kind r
  rw [← hhigh]
  exact txRise_next.mpr ⟨rfl, hpin, (phaseOver_iff s).mpr hover, k, r, hk, hr, rfl⟩

/-- An enabled TX.FALL, with the low ratio selected (R214). -/
theorem txFall_of_enabled (hpin : s.tx.pin = true) :
    txFall s.tx.state s = .next (s.setTx ((s.tx.drop
      ((s.tx.selectRatio r.zeroLow r.oneLow r.syncLow).toNat * s.tx.pulseUnitUs.toNat) s.now).advance s.now)).silent := by
  obtain ⟨k, hk, -, hlow⟩ := hseg.exists_kind r
  rw [← hlow]
  exact txFall_next.mpr ⟨rfl, hpin, (phaseOver_iff s).mpr hover, k, r, hk, hr, rfl⟩

end

/-! ## The sequencer after a segment (R214) -/

section
variable (t : Transmitter)

theorem Transmitter.advance_of_leadSync (h : t.state = .leadSync) (now : Time) :
    t.advance now = { t with state := .bits, bitIdx := 0 } := by
  simp only [advance, h]

/-- The bit index does not wrap below the length. -/
theorem bitIdx_succ_toNat {i l : BitIndex} (h : i.toNat < l.toNat) : (i + 1).toNat = i.toNat + 1 := by
  have hl : l.toNat < 2 ^ 7 := bitIndex_lt l
  exact Nat.mod_eq_of_lt (show i.toNat + 1 < 2 ^ 7 by omega)

theorem Transmitter.advance_of_bits (h : t.state = .bits) (hlt : t.bitIdx.toNat < t.bitLength.toNat) (now : Time) :
    t.advance now = { t with
      bitIdx := t.bitIdx + 1, state := if t.bitIdx.toNat + 1 = t.bitLength.toNat then .trailSync else .bits } := by
  simp only [advance, h, ← BitVec.toNat_inj, bitIdx_succ_toNat hlt]
  split <;> rfl

theorem Transmitter.advance_of_last_trailSync (h : t.state = .trailSync) (hlast : t.passLeft = 1) (now : Time) :
    t.advance now = { t with passLeft := t.passLeft - 1, state := .quiet, quietStart := now } := by
  have hzero : t.passLeft - 1 = 0 := by rw [hlast]; rfl
  simp only [advance, h, if_pos hzero]

theorem Transmitter.advance_of_trailSync (h : t.state = .trailSync) (hmore : t.passLeft ≠ 1) (now : Time) :
    t.advance now = { t with
      passLeft := t.passLeft - 1, bitIdx := 0, state := if t.protocolId.toNat = 6 then .leadSync else .bits } := by
  have hne : ¬ t.passLeft - 1 = 0 := fun e => hmore (sub_eq_zero.mp e)
  simp only [advance, h, if_neg hne]

end

end Sys2Proof.Machine

open Sys2Proof.Machine

/-- Settles O39: in each of the three states the step is TX.RISE at a segment, whose delay fits its register. -/
theorem txRiseStartsTheHighPhase : Obligations.TxRiseStartsTheHighPhase := by
  refine ⟨by decide, ?_⟩
  intro s i r hi hpin hover h1 h6 hr high
  obtain ⟨hseg, hexec⟩ := exec_atSegment (f := txRise) hi rfl rfl rfl
  exact ⟨BitVec.ofNat 40 (high.toNat * s.tx.pulseUnitUs.toNat), delay_toNat high s.tx.pulseUnitUs,
    hexec.trans (txRise_of_enabled hseg hover ((protocolAt_of_le h1 h6).trans hr) hpin)⟩

/-- Settles O40: in each of the three states the step is TX.FALL at a segment, whose delay fits its register, and the
sequencer moves on as `advance` does from that state. -/
theorem txFallEndsTheSegment : Obligations.TxFallEndsTheSegment := by
  refine ⟨by decide, ?_⟩
  intro s i r hi hpin hover h1 h6 hr low
  obtain ⟨hseg, hexec⟩ := exec_atSegment (f := txFall) hi rfl rfl rfl
  let t : Transmitter := s.tx.drop (low.toNat * s.tx.pulseUnitUs.toNat) s.now
  have hdelay : (t.advance s.now).pendingDelay.toNat = low.toNat * s.tx.pulseUnitUs.toNat := by
    rw [Transmitter.advance_pendingDelay]
    exact delay_toNat low s.tx.pulseUnitUs
  refine ⟨(s.setTx (t.advance s.now)).silent,
    hexec.trans (txFall_of_enabled hseg hover ((protocolAt_of_le h1 h6).trans hr) hpin), rfl, t.advance_pin _,
    t.advance_segmentStart _, hdelay, t.advance_protocolId _, t.advance_pulseUnitUs _, t.advance_bitLength _,
    t.advance_bits _, t.advance_result _, fun hlead => ?_, fun hbits => ?_, fun htrail => ?_⟩
  · rw [t.advance_of_leadSync hlead]
    exact ⟨rfl, rfl, rfl, rfl⟩
  · have hlt : s.tx.bitIdx.toNat < s.tx.bitLength.toNat := by simpa [Transmitter.AtSegment, hbits] using hseg
    rw [t.advance_of_bits hbits hlt]
    exact ⟨bitIdx_succ_toNat hlt, rfl, rfl, rfl⟩
  · by_cases hlast : s.tx.passLeft = 1
    · rw [t.advance_of_last_trailSync htrail hlast]
      exact ⟨rfl, fun _ => ⟨rfl, rfl, rfl⟩, absurd hlast⟩
    · rw [t.advance_of_trailSync htrail hlast]
      exact ⟨rfl, fun h => absurd h hlast, fun _ => ⟨rfl, rfl, rfl⟩⟩

/-- Settles O41: the quiet period is over, so TX.DONE is enabled. -/
theorem txDoneAnswersTheSend : Obligations.TxDoneAnswersTheSend :=
  ⟨by decide, fun s hquiet hpin hover => execTxDone_next.mpr ⟨hquiet, hpin, (quietOver_iff s).mpr hover, rfl⟩⟩
end

section
/-! NOP and REGWR (45_config.md): what a write of each register of the register map leaves in the configuration. -/

namespace Sys2Proof.Machine

/-- A register of `n` bits keeps the low `n` bits of the value (R242). -/
@[simp] theorem trunc_toNat (n : Nat) (v : PortValue) : (trunc n v).toNat = v.toNat % 2 ^ n := BitVec.toNat_setWidth ..

section
variable (c : HostConfig) (v : PortValue)

theorem writeReg_ctrl : writeReg c 0x00 v = { c with rxEn := v.getLsbD 0, txEn := v.getLsbD 1 } := rfl

theorem writeReg_rxTol : writeReg c 0x02 v = { c with tolerancePercent := trunc Config.percentW v } := rfl

theorem writeReg_txRepeat : writeReg c 0x03 v = { c with txRepeat := trunc Config.passW v } := rfl

theorem writeReg_txDefProto : writeReg c 0x04 v = { c with txDefProto := trunc Config.protoIdW v } := rfl

theorem writeReg_txDefPulse : writeReg c 0x05 v = { c with txDefPulse := trunc Config.pulseW v } := rfl

/-- A read-only or unmapped register takes no value (R244, R245). -/
theorem writeReg_of_not_writable {idx : BitVec 8} (h0 : idx ≠ 0x00) (h2 : idx ≠ 0x02) (h3 : idx ≠ 0x03)
    (h4 : idx ≠ 0x04) (h5 : idx ≠ 0x05) : writeReg c idx v = c := by
  unfold writeReg
  split
  next h => exact absurd (BitVec.eq_of_toNat_eq h) h0
  next h => exact absurd (BitVec.eq_of_toNat_eq h) h2
  next h => exact absurd (BitVec.eq_of_toNat_eq h) h3
  next h => exact absurd (BitVec.eq_of_toNat_eq h) h4
  next h => exact absurd (BitVec.eq_of_toNat_eq h) h5
  next => rfl

end

end Sys2Proof.Machine

open Sys2Proof.Machine

/-- Settles O11: the all-zero word is NOP, whose step only clears the response port. -/
theorem nopChangesNothing : Obligations.NopChangesNothing :=
  ⟨by decide, fun _ => rfl⟩

/-- Settles O12, register by register: each of the five that the host can write, then every other index. -/
theorem regwrKeepsTheLowBitsOfItsRegister : Obligations.RegwrKeepsTheLowBitsOfItsRegister := by
  intro idx v s
  refine ⟨(s.setCfg (writeReg s.cfg idx v)).silent, rfl, rfl, ?_⟩
  simp only [State.silent_cfg, State.setCfg_cfg]
  by_cases h0 : idx = 0x00
  · rw [h0, writeReg_ctrl]
    simp
  by_cases h2 : idx = 0x02
  · rw [h2, writeReg_rxTol]
    simp
  by_cases h3 : idx = 0x03
  · rw [h3, writeReg_txRepeat]
    simp
  by_cases h4 : idx = 0x04
  · rw [h4, writeReg_txDefProto]
    simp
  by_cases h5 : idx = 0x05
  · rw [h5, writeReg_txDefPulse]
    simp
  rw [writeReg_of_not_writable s.cfg v h0 h2 h3 h4 h5]
  simp only [if_neg h0, if_neg h2, if_neg h3, if_neg h4, if_neg h5, and_self]
end

section
/-! RESET (R54, R301): the ring after it, and the whole block. -/

namespace Sys2Proof.Machine

/-- The ring after reset holds 0 in each of its entries (R54). -/
theorem Capture.reset_frame {j : Nat} (hj : j < 67) : getElem? Capture.reset.frame j = some 0 := by
  rw [Capture.reset, Vector.getElem?_replicate]
  exact if_pos hj

/-- RESET in any state is the reset block, with the counter, the catalog and the turns of that state (R301). -/
theorem exec_reset (s : State) : exec .reset s = .next (resetBlock s) := rfl

end Sys2Proof.Machine

open Sys2Proof.Machine

/-- Settles O48: every group of registers is that of the reset block, whose fields are the values of the statement; only
the ring has to be read entry by entry. -/
theorem resetPutsEveryRegister : Obligations.ResetPutsEveryRegister := by
  refine ⟨by decide, fun s => ⟨resetBlock s, exec_reset s, ?_⟩⟩
  have hring : ∀ j, j < 67 → getElem? (resetBlock s).cap.frame j = some 0 := fun _ => Capture.reset_frame
  exact ⟨rfl, rfl, rfl, hring, rfl, rfl, rfl, rfl, rfl, rfl, rfl, rfl⟩
end

section
/-! The codes of the operations (30_encoding.md): the decoder gives an operation exactly for the code of that operation. A
command word whose required bits are 0 is the word of the fields left. -/

namespace Sys2Proof

/-! ## The word that a passed check leaves (R87 to R91) -/

section
variable {w : CommandWord}

theorem commandWord_of_belowOp (h : belowOp w = 0) : commandWord (opField w) false 0 false 0 false 0 0 = w := by
  have pv : pvField w = false := getLsbD_zero_of_covered h (by decide) (by decide)
  have proto : protoField w = 0 := extractLsb'_zero_of_covered h (by decide) (by decide)
  have uv : uvField w = false := getLsbD_zero_of_covered h (by decide) (by decide)
  have unit : unitField w = 0 := extractLsb'_zero_of_covered h (by decide) (by decide)
  have lv : lvField w = false := getLsbD_zero_of_covered h (by decide) (by decide)
  have len : lenField w = 0 := extractLsb'_zero_of_covered h (by decide) (by decide)
  have code : codeField w = 0 := extractLsb'_zero_of_covered h (by decide) (by decide)
  have hw := commandWord_fields w (rsvField_zero_of_belowOp h)
  rwa [pv, proto, uv, unit, lv, len, code] at hw

theorem commandWord_of_aboveIdx (h : aboveIdx w = 0) :
    commandWord (opField w) false 0 false 0 false (lenField w) (codeField w) = w := by
  have pv : pvField w = false := getLsbD_zero_of_covered h (by decide) (by decide)
  have proto : protoField w = 0 := extractLsb'_zero_of_covered h (by decide) (by decide)
  have uv : uvField w = false := getLsbD_zero_of_covered h (by decide) (by decide)
  have unit : unitField w = 0 := extractLsb'_zero_of_covered h (by decide) (by decide)
  have lv : lvField w = false := getLsbD_zero_of_covered h (by decide) (by decide)
  have hw := commandWord_fields w (rsvField_zero_of_aboveIdx h)
  rwa [pv, proto, uv, unit, lv] at hw

theorem commandWord_of_aboveProto (h : aboveProto w = 0) (h' : belowProto w = 0) :
    commandWord (opField w) false (protoField w) false 0 false 0 0 = w := by
  have pv : pvField w = false := getLsbD_zero_of_covered h (by decide) (by decide)
  have uv : uvField w = false := getLsbD_zero_of_covered h' (by decide) (by decide)
  have unit : unitField w = 0 := extractLsb'_zero_of_covered h' (by decide) (by decide)
  have lv : lvField w = false := getLsbD_zero_of_covered h' (by decide) (by decide)
  have len : lenField w = 0 := extractLsb'_zero_of_covered h' (by decide) (by decide)
  have code : codeField w = 0 := extractLsb'_zero_of_covered h' (by decide) (by decide)
  have hw := commandWord_fields w (rsvField_zero_of_aboveProto h)
  rwa [pv, uv, unit, lv, len, code] at hw

/-! ## Each port, decoded and encoded -/

/-- A check answers an operation exactly when it passes, and then its own. -/
theorem check_eq_ok_iff {c : Prop} [Decidable c] {x i : Instr} {e : Reject} :
    (if c then .ok x else .error e : Except Reject Instr) = .ok i ↔ c ∧ x = i := by
  by_cases hc : c <;> simp [hc]

/-- For each `op` the check that passes leaves the word of the operands that the decoder reads. -/
theorem encode_of_decodeCommand {i : Instr} (h : decodeCommand w = .ok i) : encode i = some (.input (.command w)) := by
  have hop (op : BitVec 4) (hn : (opField w).toNat = op.toNat) : opField w = op := BitVec.eq_of_toNat_eq hn
  unfold decodeCommand at h
  split at h
  next hn =>
    obtain ⟨hzero, rfl⟩ := check_eq_ok_iff.mp h
    rw [encode, ← hop 0 hn, commandWord_of_belowOp hzero]
  next hn =>
    obtain ⟨hzero, rfl⟩ := check_eq_ok_iff.mp h
    simp only [encode, sendArgs]
    rw [← hop 1 hn, commandWord_fields w hzero]
  next hn =>
    obtain ⟨hzero, rfl⟩ := check_eq_ok_iff.mp h
    rw [encode, ← hop 2 hn, commandWord_of_aboveIdx hzero]
  next hn =>
    obtain ⟨⟨hzero, hcode⟩, rfl⟩ := check_eq_ok_iff.mp h
    rw [encode, ← hop 3 hn, ← hcode, commandWord_of_aboveIdx hzero]
  next hn =>
    obtain ⟨hzero, rfl⟩ := check_eq_ok_iff.mp h
    rw [encode, ← hop 4 hn, commandWord_of_belowOp hzero]
  next hn =>
    obtain ⟨⟨habove, hbelow⟩, rfl⟩ := check_eq_ok_iff.mp h
    rw [encode, ← hop 5 hn, commandWord_of_aboveProto habove hbelow]
  next => cases h

end

/-- The word of a command passes its command's check, and its fields are the operands. -/
theorem decodeCommand_of_encode {w : CommandWord} {i : Instr} (h : encode i = some (.input (.command w))) :
    decodeCommand w = .ok i := by
  cases i <;> cases h
  case nop =>
    rw [decodeCommand, opField_commandWord]
    exact if_pos (belowOp_commandWord _)
  case send a =>
    rw [decodeCommand, opField_commandWord]
    refine (if_pos (rsvField_commandWord ..)).trans ?_
    rw [sendArgs, pvField_commandWord, protoField_commandWord, uvField_commandWord, unitField_commandWord,
      lvField_commandWord, lenField_commandWord, codeField_commandWord]
  case regwr idx value =>
    rw [decodeCommand, opField_commandWord]
    refine (if_pos (aboveIdx_commandWord ..)).trans ?_
    rw [lenField_commandWord, codeField_commandWord]
  case regrd idx =>
    rw [decodeCommand, opField_commandWord]
    refine (if_pos ⟨aboveIdx_commandWord .., codeField_commandWord ..⟩).trans ?_
    rw [lenField_commandWord]
  case msgtake =>
    rw [decodeCommand, opField_commandWord]
    exact if_pos (belowOp_commandWord _)
  case catrd proto =>
    rw [decodeCommand, opField_commandWord]
    refine (if_pos ⟨aboveProto_commandWord .., belowProto_commandWord ..⟩).trans ?_
    rw [protoField_commandWord]

theorem encode_of_decodeTxPattern {p : BitVec 4} {i : Instr} (h : decodeTxPattern p = .ok i) :
    encode i = some (.txPattern p) := by
  have all : ∀ p : BitVec 4, ∀ i ∈ (decodeTxPattern p).toOption, encode i = some (.txPattern p) := by decide
  exact all p i (by rw [h]; rfl)

theorem encode_of_decodeSegKind {k : BitVec 2} {i : Instr} (h : decodeSegKind k = .ok i) :
    encode i = some (.segKind k) := by
  have all : ∀ p : BitVec 2, ∀ i ∈ (decodeSegKind p).toOption, encode i = some (.segKind p) := by decide
  exact all k i (by rw [h]; rfl)

end Sys2Proof

open Sys2Proof

/-- Settles O1: a command word by its fields, and every other code is a fixed one. -/
theorem encodedOperationsDecodeToThemselves : Obligations.EncodedOperationsDecodeToThemselves := by
  rintro i ((b | w | b) | p | k) h
  case input.command => exact decodeCommand_of_encode h
  all_goals
    cases i <;> cases h
    all_goals rfl

/-- Settles O2, port by port. -/
theorem acceptedCodesAreEncodings : Obligations.AcceptedCodesAreEncodings := by
  rintro (x | p | k) i h
  case input =>
    cases x with
    | command w => exact encode_of_decodeCommand h
    | rxEdge b =>
      obtain ⟨rfl, rfl⟩ := check_eq_ok_iff.mp h
      rfl
    | resetIn b =>
      obtain ⟨rfl, rfl⟩ := check_eq_ok_iff.mp h
      rfl
  case txPattern => exact encode_of_decodeTxPattern h
  case segKind => exact encode_of_decodeSegKind h

/-- Settles O3: the encoder gives a code to each operation but the two. -/
theorem onlyDecodeAndMatchHaveNoCode : Obligations.OnlyDecodeAndMatchHaveNoCode := by
  intro i
  cases i <;> simp [encode]

/-- Settles O5, by evaluation. -/
theorem wordsOfTheSpecDecode : Obligations.WordsOfTheSpecDecode := by
  unfold Obligations.WordsOfTheSpecDecode
  decide
end

section
/-! The packing of a catalog record (R100): the word of a record has the record's bits in its seven fields, and a word is the
word of the record that its fields hold. -/

namespace Sys2Proof.Machine

/-- The word of a record, field by field. -/
theorem packProtocol_eq_iff {r : Protocol} {w : RecordWord} :
    packProtocol r = w ↔
      w.extractLsb' 48 32 = baseUnitBits r.pulseUnitUs ∧ w.extractLsb' 40 8 = ratioBits r.syncHigh ∧
        w.extractLsb' 32 8 = ratioBits r.syncLow ∧ w.extractLsb' 24 8 = ratioBits r.zeroHigh ∧
        w.extractLsb' 16 8 = ratioBits r.zeroLow ∧ w.extractLsb' 8 8 = ratioBits r.oneHigh ∧
        w.extractLsb' 0 8 = ratioBits r.oneLow := by
  unfold packProtocol
  constructor
  · rintro rfl
    refine ⟨?_, ?_, ?_, ?_, ?_, ?_, ?_⟩
    · iterate 6 rw [BitVec.extractLsb'_append_eq_of_le (by decide)]
      exact BitVec.extractLsb'_eq_self
    · iterate 5 rw [BitVec.extractLsb'_append_eq_of_le (by decide)]
      exact BitVec.extractLsb'_append_eq_right
    · iterate 4 rw [BitVec.extractLsb'_append_eq_of_le (by decide)]
      exact BitVec.extractLsb'_append_eq_right
    · iterate 3 rw [BitVec.extractLsb'_append_eq_of_le (by decide)]
      exact BitVec.extractLsb'_append_eq_right
    · iterate 2 rw [BitVec.extractLsb'_append_eq_of_le (by decide)]
      exact BitVec.extractLsb'_append_eq_right
    · rw [BitVec.extractLsb'_append_eq_of_le (by decide)]
      exact BitVec.extractLsb'_append_eq_right
    · exact BitVec.extractLsb'_append_eq_right
  · rintro ⟨hu, hsh, hsl, hzh, hzl, hoh, hol⟩
    rw [← hu, ← hsh, ← hsl, ← hzh, ← hzl, ← hoh, ← hol]
    iterate 6 rw [BitVec.extractLsb'_append_extractLsb'_eq_extractLsb' (by rfl)]
    exact BitVec.extractLsb'_eq_self

/-- Unpacking is the inverse of packing. -/
theorem unpackProtocol_eq_some_iff_pack {w : RecordWord} {r : Protocol} :
    unpackProtocol w = some r ↔ packProtocol r = w := by
  simp only [unpackProtocol_eq_some, packProtocol_eq_iff, baseUnitOf_eq_some, ratioOf_eq_some]

/-- A word is that of a record exactly when each of its fields is the legal bits of a number (R100). -/
theorem unpackProtocol_isSome (w : RecordWord) :
    (unpackProtocol w).isSome = true ↔
      (baseUnitOf (w.extractLsb' 48 32)).isSome = true ∧ (ratioOf (w.extractLsb' 40 8)).isSome = true ∧
        (ratioOf (w.extractLsb' 32 8)).isSome = true ∧ (ratioOf (w.extractLsb' 24 8)).isSome = true ∧
        (ratioOf (w.extractLsb' 16 8)).isSome = true ∧ (ratioOf (w.extractLsb' 8 8)).isSome = true ∧
        (ratioOf (w.extractLsb' 0 8)).isSome = true := by
  simp only [Option.isSome_iff_exists, unpackProtocol_eq_some]
  constructor
  · rintro ⟨r, hu, hsh, hsl, hzh, hzl, hoh, hol⟩
    exact ⟨⟨_, hu⟩, ⟨_, hsh⟩, ⟨_, hsl⟩, ⟨_, hzh⟩, ⟨_, hzl⟩, ⟨_, hoh⟩, ⟨_, hol⟩⟩
  · rintro ⟨⟨u, hu⟩, ⟨sh, hsh⟩, ⟨sl, hsl⟩, ⟨zh, hzh⟩, ⟨zl, hzl⟩, ⟨oh, hoh⟩, ⟨ol, hol⟩⟩
    exact ⟨⟨u, sh, sl, zh, zl, oh, ol⟩, hu, hsh, hsl, hzh, hzl, hoh, hol⟩

end Sys2Proof.Machine

open Sys2Proof Sys2Proof.Machine

/-- Settles O6: unpacking is the inverse of packing, and the numbers of a packed record are those of the word's fields. -/
theorem catalogRecordsPackIntoEightyBits : Obligations.CatalogRecordsPackIntoEightyBits := by
  refine ⟨fun r => unpackProtocol_eq_some_iff_pack.mpr rfl, fun w => ⟨?_, fun r h => ?_⟩⟩
  · rw [unpackProtocol_isSome]
    simp only [baseUnitOf_isSome, ratioOf_isSome]
  · have hw := unpackProtocol_eq_some_iff_pack.mp h
    obtain ⟨hu, hsh, hsl, hzh, hzl, hoh, hol⟩ := packProtocol_eq_iff.mp hw
    simp only [hw, hu, hsh, hsl, hzh, hzl, hoh, hol, baseUnitBits_toNat, ratioBits_toNat, and_self]

/-- Settles O15, with the record that the index reads. -/
theorem catrdAnswersTheRecord : Obligations.CatrdAnswersTheRecord := by
  refine fun p s => ⟨protocolAt s.catalog p.toNat, rfl, fun ⟨h1, h6⟩ => ⟨protocolAt_of_le h1 h6, ?_⟩, protocolAt_of_bad⟩
  obtain ⟨r, hr⟩ := protocolAt_isSome (c := s.catalog) ((isProtocolId_iff _).mpr ⟨h1, h6⟩)
  rw [hr]
  rfl
end

section
/-! The steps of the transmitter by their patterns (R102), when one is due (R216), and which step the block takes next
(R73, R196). -/

namespace Sys2Proof.Machine

/-! ## The patterns -/

/-- A pattern names one state and one pin level. -/
theorem txPattern_eq_iff {t : Transmitter} {st : TxState} {pin : Bool} :
    txPattern t = st.code ++ BitVec.ofBool pin ↔ t.state = st ∧ t.pin = pin := by
  have inj : ∀ (p q : Bool), t.state.code ++ BitVec.ofBool p = st.code ++ BitVec.ofBool q → t.state = st ∧ p = q := by
    cases t.state <;> cases st <;> decide
  constructor
  · exact inj _ _
  · rintro ⟨rfl, rfl⟩
    rfl

/-- What a pattern enables: TX.RISE at a low pin and TX.FALL at a high one in the active states, TX.DONE in `QUIET`. -/
theorem txStep_cases {p : BitVec 4} {i : Instr} (h : decode (.txPattern p) = .ok i) :
    (∃ st : TxState, st.active = true ∧ p = st.code ++ BitVec.ofBool false ∧ i ≠ .txDone ∧ exec i = txRise st) ∨
    (∃ st : TxState, st.active = true ∧ p = st.code ++ BitVec.ofBool true ∧ i ≠ .txDone ∧ exec i = txFall st) ∨
    (p = TxState.quiet.code ++ BitVec.ofBool false ∧ i = .txDone) := by
  have hcode := encode_of_decodeTxPattern h
  cases i <;> cases hcode
  case txRiseLeadSync => exact .inl ⟨.leadSync, rfl, rfl, nofun, rfl⟩
  case txFallLeadSync => exact .inr (.inl ⟨.leadSync, rfl, rfl, nofun, rfl⟩)
  case txRiseBits => exact .inl ⟨.bits, rfl, rfl, nofun, rfl⟩
  case txFallBits => exact .inr (.inl ⟨.bits, rfl, rfl, nofun, rfl⟩)
  case txRiseTrailSync => exact .inl ⟨.trailSync, rfl, rfl, nofun, rfl⟩
  case txFallTrailSync => exact .inr (.inl ⟨.trailSync, rfl, rfl, nofun, rfl⟩)
  case txDone => exact .inr (.inr ⟨rfl, rfl⟩)

/-- The steps of the patterns are among the transmitter's steps. -/
theorem mem_transmitterSteps_of_pattern {p : BitVec 4} {i : Instr} (h : decode (.txPattern p) = .ok i) :
    i ∈ transmitterSteps := by
  have hcode := encode_of_decodeTxPattern h
  cases i <;> cases hcode <;> decide

/-! ## The refusals -/

theorem txRise_refused_iff {st : TxState} {s : State} :
    txRise st s = .refused .notEnabled ↔ ¬ (s.tx.state = st ∧ s.tx.pin = false ∧ phaseOver s = true) := by
  unfold txRise
  split
  next hen => cases currentSegment s <;> simp [hen]
  next hen => simp [hen]

theorem txFall_refused_iff {st : TxState} {s : State} :
    txFall st s = .refused .notEnabled ↔ ¬ (s.tx.state = st ∧ s.tx.pin = true ∧ phaseOver s = true) := by
  unfold txFall
  split
  next hen => cases currentSegment s <;> simp [hen]
  next hen => simp [hen]

theorem execTxDone_refused_iff {s : State} :
    execTxDone s = .refused .notEnabled ↔ ¬ (s.tx.state = .quiet ∧ s.tx.pin = false ∧ quietOver s = true) := by
  unfold execTxDone
  split
  next hen => simp [hen]
  next hen => simp [hen]

/-! ## When the transmitter's step is due -/

/-- A step is due after the phase that is running, or, in `QUIET` with the pin low, after the quiet period (R216). -/
theorem txWait_cases {s : State} {k : Nat} (h : txWait s = some k) :
    (s.tx.state.active = true ∧ k = phaseWait s) ∨
      (s.tx.state = .quiet ∧ s.tx.pin = false ∧ k = 500000 - quietElapsed s) := by
  unfold txWait at h
  cases hst : s.tx.state with
  | idle => simp [hst] at h
  | quiet =>
    cases hpin : s.tx.pin with
    | true => simp [hst, hpin] at h
    | false => exact .inr ⟨rfl, rfl, by simpa [hst, hpin, eq_comm] using h⟩
  | leadSync | bits | trailSync => exact .inl ⟨rfl, by simpa [hst, eq_comm] using h⟩

/-- When a step is due, the pattern selects one (R102). -/
theorem decode_txPattern_of_txWait {s : State} {k : Nat} (h : txWait s = some k) :
    ∃ i, decode (.txPattern (txPattern s.tx)) = .ok i := by
  rcases txWait_cases h with ⟨hact, -⟩ | ⟨hst, hpin, -⟩
  · unfold txPattern
    cases hst : s.tx.state with
    | idle | quiet => simp [hst, TxState.active] at hact
    | leadSync | bits | trailSync => cases s.tx.pin <;> exact ⟨_, rfl⟩
  · rw [txPattern_eq_iff.mpr ⟨hst, hpin⟩]
    exact ⟨_, rfl⟩

/-- The quiet period is over after the wait (R216). -/
theorem quietOver_wait (s : State) : quietOver (s.later (500000 - quietElapsed s)) = true :=
  (quietOver_iff _).mpr (first_instant s.now s.tx.quietStart 500000 (by decide)).1

/-- A transmitter step that is due is the one its pattern selects, at that instant. -/
theorem takeTxStep_of_decode {s : State} {i : Instr} (h : decode (.txPattern (txPattern s.tx)) = .ok i) (k : Nat) :
    takeTxStep s k = exec i (s.later k) := by
  rw [takeTxStep, h]

/-! ## A waiting SEND -/

/-- A SEND at an idle transmitter that no other waits for is accepted (R196). -/
theorem execSend_of_idle {a : SendArgs} {s : State} (hidle : s.tx.state = .idle) (hwait : s.waiting = []) :
    execSend a s = .next (acceptSend a s) :=
  if_pos ⟨hidle, hwait⟩

/-- The acceptance of a SEND neither reads nor writes the list of the others. -/
theorem acceptSend_setWaiting (a : SendArgs) (s : State) (w : List SendArgs) :
    acceptSend a (s.setWaiting w) = (acceptSend a s).setWaiting w := by
  unfold acceptSend
  split
  next r hr => rw [show resolveSend s.cfg s.catalog a = .error r from hr]; rfl
  next x hx => rw [show resolveSend s.cfg s.catalog a = .ok x from hx]; rfl

theorem takeWaiting_of_busy {s : State} (h : s.tx.state ≠ .idle) : takeWaiting s = s.silent := by
  unfold takeWaiting
  split
  · rfl
  · rw [if_neg h]

/-- With the transmitter idle the oldest waiting SEND is taken as if it were presented alone, and the others stay (R196). -/
theorem takeWaiting_of_idle {s : State} {a : SendArgs} {as : List SendArgs} (hw : s.waiting = a :: as)
    (hidle : s.tx.state = .idle) :
    ∃ u, exec (.send a) (s.setWaiting []) = .next u ∧ takeWaiting s = u.setWaiting as := by
  refine ⟨acceptSend a (s.setWaiting []), execSend_of_idle hidle rfl, ?_⟩
  simp only [takeWaiting, hw, if_pos hidle, ← acceptSend_setWaiting]
  rfl

/-! ## The next step -/

/-- With no turn left and no step due, a waiting SEND is taken if it can be (log entry 13). -/
theorem nextStep_of_no_turn {s : State} (ht : s.turns = []) (hk : txWait s = none) :
    nextStep s = .next (takeWaiting s) := by
  simp only [nextStep, ht, hk]

/-- What a step of the block can be. -/
inductive StepOutcome (s : State) : Result → Prop where
  /-- The transmitter's step, at the instant it is due. -/
  | transmitter {i : Instr} {k : Nat} (hk : txWait s = some k) (hi : decode (.txPattern (txPattern s.tx)) = .ok i) :
      StepOutcome s (exec i (s.later k))
  /-- The operation of an input. -/
  | operation {x : Input} {i : Instr} (hi : decode (.input x) = .ok i) (ts : List Turn) (n : Time) :
      StepOutcome s (exec i ((s.setTurns ts).setNow n))
  /-- The taking of a waiting SEND. -/
  | waiting (ts : List Turn) (n : Time) : StepOutcome s (.next (takeWaiting ((s.setTurns ts).setNow n)))
  /-- An input that starts nothing. -/
  | nothing (ts : List Turn) (n : Time) : StepOutcome s (.next ((s.setTurns ts).setNow n).silent)
  /-- A reserved command word. -/
  | reserved (w : CommandWord) : StepOutcome s (.refused (.reservedCommand w))

theorem takeTurn_outcome (t : Turn) (rest : List Turn) (s : State) : StepOutcome s (takeTurn t rest s) := by
  cases hw : t.what with
  | accept =>
    simp only [takeTurn, takeStimulus, hw]
    exact .waiting rest t.time
  | input y =>
    cases hd : decode (.input y) with
    | ok i =>
      rw [takeTurn_input hw hd]
      exact .operation hd rest t.time
    | error e =>
      simp only [takeTurn, takeStimulus, hw, hd]
      cases y with
      | command w => exact .reserved w
      | rxEdge | resetIn => exact .nothing rest t.time

theorem takeTxStep_outcome {s : State} {k : Nat} (hk : txWait s = some k) : StepOutcome s (takeTxStep s k) := by
  obtain ⟨i, hi⟩ := decode_txPattern_of_txWait hk
  rw [takeTxStep_of_decode hi]
  exact .transmitter hk hi

theorem step_outcome (s : State) : StepOutcome s (step s) := by
  unfold step nextStep
  cases s.turns with
  | nil =>
    cases hk : txWait s with
    | some k => exact takeTxStep_outcome hk
    | none => exact .waiting s.turns s.now
  | cons t rest =>
    cases hk : txWait s with
    | none => exact takeTurn_outcome t rest s
    | some k =>
      dsimp only
      split
      · exact takeTxStep_outcome hk
      · exact takeTurn_outcome t rest s

end Sys2Proof.Machine

open Sys2Proof Sys2Proof.Machine

/-- Settles O7: the turn is taken first, and it runs the operation of its input. -/
theorem stepRunsThePresentedOperation : Obligations.StepRunsThePresentedOperation := by
  intro s t rest x i hs hw hd hfirst
  calc step s = takeTurn t rest s := nextStep_turn hs fun k hk => txGoesFirst_false (hfirst k hk)
    _ = exec i ((s.setTurns rest).setNow t.time) := takeTurn_input hw hd

/-- Settles O9: the placed turn is due at once, and a turn that does not give way goes before the transmitter. -/
theorem placedWordIsTheNextStep : Obligations.PlacedWordIsTheNextStep := by
  intro s w i h
  have hd : decode (.input (.command (BitVec.ofNat 128 w))) = .ok i := by
    unfold decodeTableWord at h
    split at h
    next hd => rwa [Option.some.inj h] at hd
    next => cases h
  refine stepRunsThePresentedOperation (s.withFetchWord 128 w)
    { time := s.now, txFirst := false, what := .input (.command (BitVec.ofNat 128 w)) } s.turns _ i rfl rfl hd ?_
  intro k _
  rw [show tsub s.now (s.withFetchWord 128 w).now = 0 from tsub_same s.now]
  exact (Nat.eq_zero_or_pos k).symm.imp id fun hk => ⟨hk.symm, rfl⟩

/-- Settles O8: the wait is the first instant of the guard (`first_instant`), for the running phase or the quiet period. -/
theorem transmitterStepsComeAtTheFirstEnabledInstant : Obligations.TransmitterStepsComeAtTheFirstEnabledInstant := by
  intro s k hk hfirst guard
  obtain ⟨i, hi⟩ := decode_txPattern_of_txWait hk
  have hstep : step s = exec i (s.later k) := by
    rw [← takeTxStep_of_decode hi]
    refine nextStep_tx hk fun t rest ht => txGoesFirst_true ?_
    rcases hfirst with hnil | ⟨t', rest', ht', hlt⟩
    · cases hnil.symm.trans ht
    · cases ht'.symm.trans ht
      exact hlt
  suffices hguard : guard k ∧ ∀ n, n < k → ¬ guard n from ⟨hguard.1, hguard.2, i, hi, hstep⟩
  rcases txWait_cases hk with ⟨hact, rfl⟩ | ⟨hst, -, rfl⟩
  · have hq : s.tx.state ≠ .quiet := by rintro hq; simp [hq, TxState.active] at hact
    have hlt : s.tx.pendingDelay.toNat < 2 ^ 64 := (delayReg_lt _).trans (by decide)
    simp only [guard, if_neg hq, not_le]
    exact first_instant s.now s.tx.segmentStart _ hlt
  · simp only [guard, if_pos hst, not_le]
    exact first_instant s.now s.tx.quietStart 500000 (by decide)

/-- Settles O10: a turn, or the step with no turn left, takes the waiting SEND as `takeWaiting` does, and no step of the
transmitter writes the list. -/
theorem waitingSendIsTakenOnlyWhenIdle : Obligations.WaitingSendIsTakenOnlyWhenIdle := by
  constructor
  · intro s t rest a as hs hw hwait hfirst
    have hstep : step s = .next (takeWaiting ((s.setTurns rest).setNow t.time)) := by
      rw [step, nextStep_turn hs fun k hk => txGoesFirst_false (hfirst k hk)]
      simp only [takeTurn, takeStimulus, hw]
    constructor
    · intro hidle
      obtain ⟨u, hu, htake⟩ := takeWaiting_of_idle (s := (s.setTurns rest).setNow t.time) hwait hidle
      exact ⟨u, hu, hstep.trans (congrArg _ htake)⟩
    · intro hbusy
      exact hstep.trans (congrArg _ (takeWaiting_of_busy (s := (s.setTurns rest).setNow t.time) hbusy))
  · intro s a as hs hwait
    constructor
    · intro hidle
      obtain ⟨u, hu, htake⟩ := takeWaiting_of_idle hwait hidle
      exact ⟨u, hu, (nextStep_of_no_turn hs (txWait_idle hidle)).trans (congrArg _ htake)⟩
    · intro hbusy t ht
      cases hk : txWait s with
      | none =>
        rw [step, nextStep_of_no_turn hs hk, takeWaiting_of_busy hbusy] at ht
        cases ht
        rfl
      | some k =>
        obtain ⟨i, hi⟩ := decode_txPattern_of_txWait hk
        rw [step, nextStep_tx hk (by simp [hs]), takeTxStep_of_decode hi] at ht
        rw [exec_transmitterStep_frame (mem_transmitterSteps_of_pattern hi) ht]
        rfl

/-- Settles O42: the three kinds of step, each refused exactly when its state, its pin level or its time guard is not
there. -/
theorem txStepsAreRefusedUnlessEnabled : Obligations.TxStepsAreRefusedUnlessEnabled := by
  intro s i p h
  have refused {a b c : Prop} : ¬ (a ∧ b ∧ c) ↔ ¬ (a ∧ b) ∨ ¬ c := by rw [← and_assoc, not_and_or]
  rcases txStep_cases h with ⟨st, -, rfl, hi, hexec⟩ | ⟨st, -, rfl, hi, hexec⟩ | ⟨rfl, rfl⟩
  · rw [hexec, txRise_refused_iff, refused, if_neg hi, ne_eq, txPattern_eq_iff, phaseOver_iff, not_le]
  · rw [hexec, txFall_refused_iff, refused, if_neg hi, ne_eq, txPattern_eq_iff, phaseOver_iff, not_le]
  · rw [if_pos rfl, ne_eq, txPattern_eq_iff, ← not_le, ← quietOver_iff, ← refused]
    exact execTxDone_refused_iff
end

section
/-! The invariant (R143, R162, R224): every operation keeps it, so every step does; and from it no step of the block stops
but on a reserved word. -/

namespace Sys2Proof.Machine

/-! ## What every operation keeps -/

theorem MessageOk.reset : MessageOk Message.reset false := .inr ⟨rfl, rfl⟩

/-- MSGTAKE clears the flag only (R183). -/
theorem MessageOk.clear {m : Message} {p : Bool} (h : MessageOk m p) : MessageOk m false :=
  h.imp id fun h => ⟨h.1, rfl⟩

theorem Capture.reset_ok : Capture.reset.Ok := show (0 : RepeatCount).toNat < 2 by decide

theorem Transmitter.reset_ok : Transmitter.reset.Ok := by
  constructor <;> decide

/-- The invariant speaks of the capture state, the message state and the transmitter. -/
theorem State.Ok.of_eq {s t : State} (h : s.Ok) (hcap : t.cap = s.cap) (hmsg : t.msg = s.msg)
    (hpend : t.msgPending = s.msgPending) (htx : t.tx = s.tx) : t.Ok :=
  ⟨hcap ▸ h.cap, by rw [hmsg, hpend]; exact h.msg, htx ▸ h.tx⟩

/-- The reset state, whatever the catalog, the counter and the turns are (R54, R301). -/
theorem resetBlock_ok (s : State) : (resetBlock s).Ok := ⟨Capture.reset_ok, .reset, Transmitter.reset_ok⟩

section
variable {s t : State} (hs : s.Ok)
include hs

theorem State.Ok.edge (h : execEdge s = .next t) : t.Ok := by
  have hcap : t.cap.Ok := by
    by_cases hen : s.cfg.rxEn = true
    · rw [execEdge_enabled hen] at h
      cases h
      obtain ⟨c, hc, -, -, -, hrep⟩ := edgeStep_cap s
      have hle : c.repeatCount.toNat ≤ 1 := hrep (Nat.lt_succ_iff.mp hs.cap)
      rw [State.silent_cap, hc]
      exact Nat.lt_succ_iff.mpr hle
    · rw [execEdge_disabled hen] at h
      cases h
      exact hs.cap
  rcases execEdge_frame h with ⟨c, rfl⟩ | ⟨c, m, rfl, hm, -⟩
  · exact ⟨hcap, hs.msg, hs.tx⟩
  · exact ⟨hcap, .inl hm, hs.tx⟩

theorem State.Ok.txRise {st : TxState} (h : txRise st s = .next t) : t.Ok := by
  obtain ⟨-, -, -, k, r, hk, -, rfl⟩ := txRise_next.mp h
  exact ⟨hs.cap, hs.msg, Transmitter.rise_ok hs.tx (active_of_segKind hk) ..⟩

theorem State.Ok.txFall {st : TxState} (h : txFall st s = .next t) : t.Ok := by
  obtain ⟨-, -, -, k, r, hk, -, rfl⟩ := txFall_next.mp h
  exact ⟨hs.cap, hs.msg, Transmitter.fall_ok hs.tx (active_of_segKind hk) ..⟩

theorem State.Ok.later (n : Nat) : (s.later n).Ok := hs.of_eq rfl rfl rfl rfl

theorem State.Ok.segment {k : SegKind} {st : TxState} (h : segment k st s = .next t) : t.Ok := by
  obtain ⟨-, u, hu, ht⟩ := segment_next.mp h
  exact (((hs.later _).txRise hu).later _).txFall ht

/-- An accepted SEND fails or loads the transmitter (R195). -/
theorem State.Ok.acceptSend (hidle : s.tx.state = .idle) (a : SendArgs) : (acceptSend a s).Ok := by
  unfold Machine.acceptSend
  split
  next r _ => exact ⟨hs.cap, hs.msg, Transmitter.fail_ok hs.tx r⟩
  next x hx => exact ⟨hs.cap, hs.msg, Transmitter.load_ok hx hs.tx hidle ..⟩

theorem State.Ok.takeWaiting : (takeWaiting s).Ok := by
  unfold Machine.takeWaiting
  split
  next => exact hs.of_eq rfl rfl rfl rfl
  next a rest _ =>
    split
    next hidle => exact State.Ok.acceptSend (s := s.setWaiting rest) (hs.of_eq rfl rfl rfl rfl) hidle a
    next => exact hs.of_eq rfl rfl rfl rfl

/-- Every operation keeps the invariant, called on any state of it. -/
theorem State.Ok.exec {i : Instr} (h : exec i s = .next t) : t.Ok := by
  cases i with
  | nop | regwr _ _ | regrd _ | catrd _ | matchDur _ _ _ =>
    cases h
    exact hs.of_eq rfl rfl rfl rfl
  | msgtake =>
    cases h
    exact ⟨hs.cap, hs.msg.clear, hs.tx⟩
  | send a =>
    by_cases hfree : s.tx.state = .idle ∧ s.waiting = []
    · cases (execSend_of_idle hfree.1 hfree.2).symm.trans h
      exact hs.acceptSend hfree.1 a
    · cases (if_neg hfree).symm.trans h
      exact hs.of_eq rfl rfl rfl rfl
  | edge => exact hs.edge h
  | decodeTry p cc =>
    rcases execDecodeTry_frame h with rfl | ⟨m, rfl, hm, -⟩
    · exact hs.of_eq rfl rfl rfl rfl
    · exact ⟨hs.cap, .inl hm, hs.tx⟩
  | txRiseLeadSync | txRiseBits | txRiseTrailSync => exact hs.txRise h
  | txFallLeadSync | txFallBits | txFallTrailSync => exact hs.txFall h
  | txDone =>
    obtain ⟨-, hpin, -, rfl⟩ := execTxDone_next.mp h
    exact ⟨hs.cap, hs.msg, Transmitter.done_ok hs.tx hpin⟩
  | segL0 | segL1 | segSync => exact hs.segment h
  | reset =>
    cases h
    exact resetBlock_ok s

end

/-! ## No stop -/

/-- What stands on an input port starts an operation that always answers a next state. -/
theorem exec_input_fine {x : Input} {i : Instr} (h : decode (.input x) = .ok i) (s : State) :
    Result.fine (exec i s) := by
  have hcode := acceptedCodesAreEncodings _ _ h
  cases i <;> cases hcode
  case nop | regwr | regrd | msgtake | catrd | reset => exact trivial
  case send a =>
    show Result.fine (execSend a s)
    unfold execSend
    split <;> exact trivial
  case edge =>
    show Result.fine (execEdge s)
    unfold execEdge
    split <;> exact trivial

/-- From the invariant the transmitter's step that is due is enabled at its instant, and its segment exists (R124, R224). -/
theorem exec_txStep_fine {s : State} (hs : s.Ok) {i : Instr} {k : Nat} (hk : txWait s = some k)
    (hi : decode (.txPattern (txPattern s.tx)) = .ok i) : Result.fine (exec i (s.later k)) := by
  have hcur (hact : s.tx.state.active = true) : ∃ x, currentSegment (s.later k) = .ok x := by
    obtain ⟨kind, r, h⟩ := currentSegment_of_ok (s := s.later k) hs.tx hact
    exact ⟨_, h⟩
  have hphase (hact : s.tx.state.active = true) : phaseOver (s.later k) = true := by
    rcases txWait_cases hk with ⟨-, rfl⟩ | ⟨hq, -, -⟩
    · exact phaseOver_wait s
    · simp [hq, TxState.active] at hact
  rcases txStep_cases hi with ⟨st, hact, hp, -, hexec⟩ | ⟨st, hact, hp, -, hexec⟩ | ⟨hp, rfl⟩
  · obtain ⟨rfl, hpin⟩ := txPattern_eq_iff.mp hp
    obtain ⟨x, hx⟩ := hcur hact
    rw [hexec, txRise, if_pos ⟨rfl, hpin, hphase hact⟩, hx]
    exact trivial
  · obtain ⟨rfl, hpin⟩ := txPattern_eq_iff.mp hp
    obtain ⟨x, hx⟩ := hcur hact
    rw [hexec, txFall, if_pos ⟨rfl, hpin, hphase hact⟩, hx]
    exact trivial
  · obtain ⟨hst, hpin⟩ := txPattern_eq_iff.mp hp
    have hquiet : quietOver (s.later k) = true := by
      rcases txWait_cases hk with ⟨hact, -⟩ | ⟨-, -, rfl⟩
      · simp [hst, TxState.active] at hact
      · exact quietOver_wait s
    show Result.fine (execTxDone _)
    rw [execTxDone, if_pos ⟨hst, hpin, hquiet⟩]
    exact trivial

end Sys2Proof.Machine

open Sys2Proof Sys2Proof.Machine

/-- Settles O52: a RESET of the reset state leaves it. -/
theorem resetStateIsOk : Obligations.ResetStateIsOk := resetBlock_ok State.reset

/-- Settles O53: a step is an operation or the taking of a waiting SEND, on the state at a later instant. -/
theorem everyStepKeepsTheInvariant : Obligations.EveryStepKeepsTheInvariant := by
  intro s t hs h
  have hthen (ts : List Turn) (n : Time) : ((s.setTurns ts).setNow n).Ok := hs.of_eq rfl rfl rfl rfl
  have hstep := step_outcome s
  generalize step s = o at h hstep
  cases hstep with
  | transmitter hk hi => exact (hs.later _).exec h
  | operation hi ts n => exact (hthen ts n).exec h
  | waiting ts n =>
    cases h
    exact (hthen ts n).takeWaiting
  | nothing ts n =>
    cases h
    exact (hthen ts n).of_eq rfl rfl rfl rfl
  | reserved w => cases h

/-- Settles O54, by what a step can be. -/
theorem noStepStopsButOnAReservedWord : Obligations.NoStepStopsButOnAReservedWord := by
  intro s hs
  have hstep := step_outcome s
  generalize step s = o at hstep
  cases hstep with
  | transmitter hk hi => exact exec_txStep_fine hs hk hi
  | operation hi ts n => exact exec_input_fine hi _
  | waiting ts n => exact trivial
  | nothing ts n => exact trivial
  | reserved w => exact ⟨w, rfl⟩
end

section
/-! Who writes what and who reads what: the catalog, the end of a transmission, the messages, and the two agents that share
no state (R20, R221, R225, R287). -/

namespace Sys2Proof.Machine

/-- The transmitter's steps are TX.RISE, TX.FALL, TX.DONE and the segments, each of a state that only the transmitter's own
state fixes (R208 to R215). -/
theorem exec_transmitterStep_cases {i : Instr} (hi : i ∈ transmitterSteps) (st : TxState) :
    (∃ st, exec i = txRise st) ∨ (∃ st, exec i = txFall st) ∨ i = .txDone ∨
      ∃ k st', ∀ s, s.tx.state = st → exec i s = segment k st' s := by
  simp only [transmitterSteps, List.mem_cons, List.not_mem_nil, or_false] at hi
  rcases hi with rfl | rfl | rfl | rfl | rfl | rfl | rfl | rfl | rfl | rfl
  · exact .inl ⟨_, rfl⟩
  · exact .inr (.inl ⟨_, rfl⟩)
  · exact .inl ⟨_, rfl⟩
  · exact .inr (.inl ⟨_, rfl⟩)
  · exact .inl ⟨_, rfl⟩
  · exact .inr (.inl ⟨_, rfl⟩)
  · exact .inr (.inr (.inl rfl))
  · exact .inr (.inr (.inr ⟨.zero, .bits, fun _ _ => rfl⟩))
  · exact .inr (.inr (.inr ⟨.one, .bits, fun _ _ => rfl⟩))
  · exact .inr (.inr (.inr ⟨.sync, st, fun _ h => h ▸ rfl⟩))

/-- No operation writes the catalog (R121). -/
theorem exec_catalog {i : Instr} {s t : State} (h : exec i s = .next t) : t.catalog = s.catalog := by
  by_cases hr : i = .reset
  · subst hr
    cases h
    rfl
  · cases exec_ownedWrite h hr <;> rfl

/-- No operation but EDGE and DECODE, and RESET, writes the message registers or raises the flag (R20, R183). -/
theorem exec_edge_or_decode_of_new_message {i : Instr} {s t : State} (h : exec i s = .next t) (hr : i ≠ .reset)
    (hnew : t.msg ≠ s.msg ∨ (t.msgPending = true ∧ s.msgPending = false)) : i = .edge ∨ ∃ p cc, i = .decodeTry p cc := by
  obtain ⟨-, hmsg, hpend, -⟩ := stateIsWrittenByItsOwner i s t h hr
  rcases hnew with hne | ⟨ht, hs⟩
  · exact hmsg hne
  · rcases hpend (by simp [ht, hs]) with rfl | howner
    · cases h
      cases ht
    · exact howner

/-! ## What ends a transmission -/

/-- The sequencer never goes to `IDLE` after a segment (R214). -/
theorem Transmitter.advance_state_ne_idle {t : Transmitter} (h : t.state ≠ .idle) (now : Time) :
    (t.advance now).state ≠ .idle := by
  unfold Transmitter.advance
  split
  next => nofun
  next hst =>
    split
    · nofun
    · exact h
  next =>
    split
    · nofun
    · dsimp only
      split <;> nofun
  next => exact h
  next => exact h

theorem txRise_state {st : TxState} {s t : State} (h : txRise st s = .next t) : t.tx.state = s.tx.state := by
  obtain ⟨-, -, -, k, r, -, -, rfl⟩ := txRise_next.mp h
  rfl

theorem txFall_state_ne_idle {st : TxState} {s t : State} (h : txFall st s = .next t) (hbusy : s.tx.state ≠ .idle) :
    t.tx.state ≠ .idle := by
  obtain ⟨-, -, -, k, r, -, -, rfl⟩ := txFall_next.mp h
  exact Transmitter.advance_state_ne_idle (t := s.tx.drop _ s.now) hbusy s.now

theorem segment_state_ne_idle {k : SegKind} {st : TxState} {s t : State} (h : segment k st s = .next t)
    (hbusy : s.tx.state ≠ .idle) : t.tx.state ≠ .idle := by
  obtain ⟨-, u, hu, ht⟩ := segment_next.mp h
  have hu' : u.tx.state ≠ .idle := by rwa [txRise_state hu]
  exact txFall_state_ne_idle ht hu'

/-! ## What the transmitter reads -/

/-- `x` with all that the transmitter's steps read taken from `s`: the transmitter, the catalog and the counter (R225). -/
def State.withTxOf (x s : State) : State := { x with tx := s.tx, catalog := s.catalog, now := s.now }

section
variable {s t : State} (x : State)

theorem txRise_withTxOf {st : TxState} (h : txRise st s = .next t) :
    txRise st (x.withTxOf s) = .next (x.withTxOf t).silent := by
  obtain ⟨hst, hpin, hover, k, r, hk, hr, rfl⟩ := txRise_next.mp h
  exact txRise_next.mpr ⟨hst, hpin, hover, k, r, hk, hr, rfl⟩

theorem txFall_withTxOf {st : TxState} (h : txFall st s = .next t) :
    txFall st (x.withTxOf s) = .next (x.withTxOf t).silent := by
  obtain ⟨hst, hpin, hover, k, r, hk, hr, rfl⟩ := txFall_next.mp h
  exact txFall_next.mpr ⟨hst, hpin, hover, k, r, hk, hr, rfl⟩

theorem execTxDone_withTxOf (h : execTxDone s = .next t) :
    execTxDone (x.withTxOf s) = .next ((x.withTxOf t).respond (.send .ok)) := by
  obtain ⟨hst, hpin, hover, rfl⟩ := execTxDone_next.mp h
  exact execTxDone_next.mpr ⟨hst, hpin, hover, rfl⟩

theorem segment_withTxOf {k : SegKind} {st : TxState} (h : segment k st s = .next t) :
    segment k st (x.withTxOf s) = .next (x.withTxOf t).silent := by
  obtain ⟨hk, u, hu, ht⟩ := segment_next.mp h
  exact segment_next.mpr ⟨hk, _, txRise_withTxOf x hu, txFall_withTxOf x.silent ht⟩

end

end Sys2Proof.Machine

open Sys2Proof Sys2Proof.Machine

/-- Settles O17: each kind of step keeps the catalog. -/
theorem catalogIsNeverWritten : Obligations.CatalogIsNeverWritten := by
  intro s t h
  have hstep := step_outcome s
  generalize step s = o at h hstep
  cases hstep with
  | @transmitter i k hk hi => exact exec_catalog (s := s.later k) h
  | @operation x i hi ts n => exact exec_catalog (s := (s.setTurns ts).setNow n) h
  | waiting ts n =>
    cases h
    rw [takeWaiting_frame]
    rfl
  | nothing ts n =>
    cases h
    rfl
  | reserved w => cases h

/-- Settles O32: only EDGE and DECODE make a message, and theirs are decodes of their own instant. -/
theorem newMessagesAreDecodes : Obligations.NewMessagesAreDecodes := by
  intro i s t h hr hnew
  have hmade : t.msgPending = true ∧ t.msg.Decoded ∧ t.msg.timestamp = s.now := by
    have hnone (hmsg : t.msg = s.msg) (hpend : t.msgPending = s.msgPending) : False := by
      rcases hnew with hne | ⟨ht, hs⟩
      · exact hne hmsg
      · exact Bool.false_ne_true (hs.symm.trans (hpend.symm.trans ht))
    rcases exec_edge_or_decode_of_new_message h hr hnew with rfl | ⟨p, cc, rfl⟩
    · rcases execEdge_frame h with ⟨c, rfl⟩ | ⟨c, m, rfl, hm⟩
      · exact (hnone rfl rfl).elim
      · exact ⟨rfl, hm⟩
    · rcases execDecodeTry_frame h with rfl | ⟨m, rfl, hm⟩
      · exact (hnone rfl rfl).elim
      · exact ⟨rfl, hm⟩
  obtain ⟨hpend, hdec, hnow⟩ := hmade
  obtain ⟨hcode, hlen, hlen', hid⟩ := (Message.decoded_iff _).mp hdec
  obtain ⟨h1, h6⟩ := (isProtocolId_iff _).mp hid
  exact ⟨hpend, hcode, hlen, hlen', h1, h6, hnow⟩

/-- Settles O46: of the operations that write the transmitter only TX.DONE and RESET can leave it in `IDLE`. -/
theorem onlyDoneOrResetEndsATransmission : Obligations.OnlyDoneOrResetEndsATransmission := by
  intro i s t h hbusy hidle
  by_cases hr : i = .reset
  · exact .inr hr
  left
  have hchanged : t.tx ≠ s.tx := fun e => hbusy (e ▸ hidle)
  obtain ⟨-, -, -, hown, -⟩ := stateIsWrittenByItsOwner i s t h hr
  rcases hown hchanged with ⟨a, rfl⟩ | hi
  · rcases execSend_cases a s with ⟨-, e⟩ | ⟨hfree, -⟩
    · cases e.symm.trans h
      exact absurd rfl hchanged
    · exact absurd hfree hbusy
  · rcases exec_transmitterStep_cases hi s.tx.state with ⟨st, e⟩ | ⟨st, e⟩ | rfl | ⟨k, st, e⟩
    · rw [e] at h
      exact absurd hidle (by rwa [txRise_state h])
    · rw [e] at h
      exact absurd hidle (txFall_state_ne_idle h hbusy)
    · obtain ⟨-, -, hover, rfl⟩ := execTxDone_next.mp h
      exact ⟨rfl, (quietOver_iff s).mp hover, rfl⟩
    · rw [e s rfl] at h
      exact absurd hidle (segment_state_ne_idle h hbusy)

/-- Settles O50: an edge makes the same ring and the same message of two states that agree in all it reads. -/
theorem receiverIgnoresTheTransmitter : Obligations.ReceiverIgnoresTheTransmitter := by
  intro s s' t hcap hmsg hpend hcat hnow hen htol h
  by_cases hrx : s.cfg.rxEn = true
  · cases (execEdge_enabled hrx).symm.trans h
    refine ⟨_, execEdge_enabled (hen.trans hrx), ?_⟩
    rcases edgeStep_effect hcap hcat hnow htol with ⟨c, hs, hs'⟩ | ⟨c, m, hs, hs', -⟩
    · rw [hs, hs']
      exact ⟨rfl, hmsg, hpend⟩
    · rw [hs, hs']
      exact ⟨rfl, rfl, rfl⟩
  · cases (execEdge_disabled hrx).symm.trans h
    exact ⟨_, execEdge_disabled (by rwa [hen]), hcap, hmsg, hpend⟩

/-- Settles O51: the second state is itself with the transmitter, the catalog and the counter of the first. -/
theorem transmitterIgnoresEverythingElse : Obligations.TransmitterIgnoresEverythingElse := by
  intro i s s' t hi htx hcat hnow h
  have hs' : s'.withTxOf s = s' := by rw [State.withTxOf, ← htx, ← hcat, ← hnow]
  rw [← hs']
  rcases exec_transmitterStep_cases hi s.tx.state with ⟨st, e⟩ | ⟨st, e⟩ | rfl | ⟨k, st, e⟩
  · rw [e] at h ⊢
    exact ⟨_, txRise_withTxOf s' h, rfl, rfl, by rw [txRise_frame h]; rfl⟩
  · rw [e] at h ⊢
    exact ⟨_, txFall_withTxOf s' h, rfl, rfl, by rw [txFall_frame h]; rfl⟩
  · exact ⟨_, execTxDone_withTxOf s' h, rfl, rfl, by rw [execTxDone_frame h]; rfl⟩
  · rw [e s rfl] at h
    rw [e (s'.withTxOf s) rfl]
    exact ⟨_, segment_withTxOf s' h, rfl, rfl, by rw [segment_frame h]; rfl⟩

/-- Settles O22. -/
theorem disabledReceiverDropsEdges : Obligations.DisabledReceiverDropsEdges :=
  fun _ hoff => execEdge_disabled (Bool.eq_false_iff.mp hoff)
end

section
/-! REGRD (45_config.md): the number that each register of the register map reads as, and what it reads after a write. -/

namespace Sys2Proof.Machine

/-- A register that fits the port is answered as it is (R243). -/
theorem zext64_toNat {n : Nat} (hn : n ≤ 64) (v : BitVec n) : (zext64 v).toNat = v.toNat :=
  BitVec.toNat_setWidth_of_le hn

theorem zext64_trunc {n : Nat} (hn : n ≤ 64) (v : PortValue) :
    zext64 (trunc n v) = BitVec.ofNat 64 (v.toNat % 2 ^ n) := by
  apply BitVec.eq_of_toNat_eq
  have hlt : v.toNat % 2 ^ n < 2 ^ 64 := (Nat.mod_le _ _).trans_lt (portValue_lt v)
  rw [zext64_toNat hn, trunc_toNat, BitVec.toNat_ofNat, Nat.mod_eq_of_lt hlt]

/-- A flag below a field. -/
theorem append_ofBool_toNat {n : Nat} (v : BitVec n) (b : Bool) : (v ++ BitVec.ofBool b).toNat = 2 * v.toNat + b.toNat := by
  rw [BitVec.toNat_append, BitVec.toNat_ofBool, Nat.shiftLeft_eq, Nat.mul_comm, ← Nat.two_pow_add_eq_or_of_lt]
  exact b.toNat_lt

/-- `CTRL` as a number (R246). -/
theorem ctrlBits_toNat (s : State) : (ctrlBits s).toNat = s.cfg.rxEn.toNat + 2 * s.cfg.txEn.toNat := by
  rw [ctrlBits, zext64_toNat (by decide), append_ofBool_toNat, BitVec.toNat_ofBool, Nat.add_comm]

/-- `STATUS` as a number (R247). -/
theorem statusBits_toNat (s : State) :
    (statusBits s).toNat = s.msgPending.toNat + 2 * (txBusy s).toNat + 4 * s.tx.result.code.toNat := by
  rw [statusBits, zext64_toNat (by decide), append_ofBool_toNat, append_ofBool_toNat]
  omega

/-- `CTRL` holds the two low bits of the value written to it (R242, R246). -/
theorem low_bits_eq_trunc (v : PortValue) : BitVec.ofBool (v.getLsbD 1) ++ BitVec.ofBool (v.getLsbD 0) = trunc 2 v := by
  apply BitVec.eq_of_getLsbD_eq
  intro i hi
  rw [trunc, BitVec.getLsbD_setWidth, BitVec.getLsbD_append]
  match i, hi with
  | 0, _ => simp
  | 1, _ => simp

/-- An unmapped register reads 0 (R244). -/
theorem readReg_of_unmapped (s : State) {idx : BitVec 8}
    (h : idx.toNat = 6 ∨ idx.toNat = 7 ∨ (13 ≤ idx.toNat ∧ idx.toNat ≤ 15) ∨ 19 ≤ idx.toNat) : readReg s idx = 0 := by
  unfold readReg
  split
  case h_15 => rfl
  all_goals omega

end Sys2Proof.Machine

open Sys2Proof Sys2Proof.Machine

/-- Settles O13, with the value that the register map reads. -/
theorem regrdAnswersTheRegister : Obligations.RegrdAnswersTheRegister := by
  intro idx s
  refine ⟨readReg s idx, rfl, ?_, ?_, ?_, ?_, ?_, ?_, ?_, ?_, ?_, ?_, ?_, ?_, ?_, ?_, ?_⟩
  · rintro rfl
    exact ctrlBits_toNat s
  · rintro rfl
    have hbusy : 2 * (txBusy s).toNat = if s.tx.state = .idle then 0 else 2 := by
      by_cases hst : s.tx.state = .idle <;> simp [txBusy, hst]
    rw [← hbusy]
    refine (statusBits_toNat s).trans ?_
    cases s.tx.result <;> rfl
  case refine_7 | refine_8 | refine_10 =>
    rintro rfl
    rfl
  case refine_15 =>
    intro h
    refine readReg_of_unmapped s ?_
    rcases h with rfl | rfl | h
    · exact .inl rfl
    · exact .inr (.inl rfl)
    · exact .inr (.inr h)
  all_goals
    rintro rfl
    refine zext64_toNat ?_ _
    decide

/-- Settles O14: the five registers that the host can write, and the indices whose write changes nothing. -/
theorem writtenRegisterReadsBack : Obligations.WrittenRegisterReadsBack := by
  intro idx v s
  refine ⟨_, _, rfl, rfl, ?_, ?_, ?_, ?_⟩
  · rintro rfl
    refine congrArg (some <| Response.value ·) (.trans ?_ (zext64_trunc (by decide) v))
    exact congrArg zext64 (low_bits_eq_trunc v)
  · rintro (rfl | rfl | rfl) <;> exact congrArg (some <| Response.value ·) (zext64_trunc (by decide) v)
  · rintro rfl
    exact congrArg (some <| Response.value ·) (zext64_trunc (by decide) v)
  · intro h
    have hw : writeReg s.cfg idx v = s.cfg := by
      apply writeReg_of_not_writable <;> rintro rfl <;> revert h <;> decide
    refine ⟨_, rfl, ?_⟩
    rw [hw]
    rfl
end

section
/-! SEND (44_transmitter.md section 1): when it waits or fails without a check of its arguments, and what one whose checks
pass latches. -/

namespace Sys2Proof.Machine

/-- A SEND with `tx_en` = 0 stops at the first check (R197). -/
theorem resolveSend_of_disabled {cfg : HostConfig} (cat : Vector Protocol Config.nProtocols) (a : SendArgs)
    (hoff : cfg.txEn = false) : resolveSend cfg cat a = .error .failDisabled :=
  if_pos hoff

/-- A SEND that passes every check, with what is latched (R203, R204). -/
theorem resolveSend_of_inRange {cfg : HostConfig} {cat : Vector Protocol Config.nProtocols} {a : SendArgs} {r : Protocol}
    (hen : cfg.txEn = true) (hr : protocolAt cat (effectiveProto cfg a).toNat = some r)
    (hok : ¬ argRangeFails (effectiveProto cfg a).toNat (effectiveUnit cfg r a).toNat
      (effectiveLen (effectiveProto cfg a).toNat a) a.code.toNat = true) :
    ∃ bits, resolveSend cfg cat a = .ok {
      proto := effectiveProto cfg a, unit := effectiveUnit cfg r a, onAirBits := bits,
      onAirLen := if (effectiveProto cfg a).toNat = 6 then 2 * effectiveLen (effectiveProto cfg a).toNat a
        else effectiveLen (effectiveProto cfg a).toNat a } := by
  have hne : ¬ cfg.txEn = false := by simp [hen]
  simp only [resolveSend, if_neg hne, hr, if_neg hok, Config.nexaProto_eq]
  split
  · exact ⟨_, rfl⟩
  · exact ⟨_, rfl⟩

/-- A SEND after which an idle transmitter is busy has passed its checks (R195, R205). -/
theorem execSend_loaded {a : SendArgs} {s t : State} (hidle : s.tx.state = .idle) (h : execSend a s = .next t)
    (hbusy : t.tx.state ≠ .idle) :
    ∃ x, resolveSend s.cfg s.catalog a = .ok x ∧ t = (s.setTx (s.tx.load x s.cfg.txRepeat s.now)).silent := by
  rcases execSend_cases a s with ⟨-, e⟩ | ⟨-, -, ⟨r, -, e⟩ | ⟨x, hx, e⟩⟩
  · cases e.symm.trans h
    exact absurd hidle hbusy
  · cases e.symm.trans h
    exact absurd hidle hbusy
  · cases e.symm.trans h
    exact ⟨x, hx, rfl⟩

/-- An on-air length fits its register (R39). -/
theorem onAirLen_toNat {l : Nat} (h : l ≤ 64) : (BitVec.ofNat Config.bitIdxW l).toNat = l :=
  Nat.mod_eq_of_lt (show l < 2 ^ 7 by omega)

/-- A code that fits `l` bits has no bit at or above `l`. -/
theorem getLsbD_of_codeFits {c : CodeWord} {l : Nat} (h : c.toNat < 2 ^ l) (j : Nat) :
    c.getLsbD j = (decide (j < l) && c.getLsbD j) := by
  by_cases hj : j < l
  · simp [hj]
  · have hpow : 2 ^ l ≤ 2 ^ j := Nat.pow_le_pow_right (by decide) (Nat.le_of_not_lt hj)
    have hzero : c.getLsbD j = false := Nat.testBit_lt_two_pow (h.trans_le hpow)
    simp [hzero]

end Sys2Proof.Machine

open Sys2Proof Sys2Proof.Machine

/-- Settles O33: the first check refuses it. -/
theorem disabledSendFails : Obligations.DisabledSendFails :=
  fun s a hidle hwait hoff => execSend_of_refused hidle hwait (resolveSend_of_disabled s.catalog a hoff)

/-- Settles O38. -/
theorem busySendWaits : Obligations.BusySendWaits :=
  fun _ _ h => if_neg fun ⟨hidle, hwait⟩ => h.elim (absurd hidle) (absurd hwait)

/-- Settles O35: the unit and the length of the statement are the effective ones, so every check passes. -/
theorem acceptedSendLoadsTheTransmitter : Obligations.AcceptedSendLoadsTheTransmitter := by
  intro s a r hidle hwait hen p h1 h6 hr u l hu hl0 hl64 hl32 hcode
  have hunit : (effectiveUnit s.cfg r a).toNat = u := effectiveUnit_toNat ..
  have hlen : effectiveLen p a = l := effectiveLen_eq ..
  have hrange : ¬ argRangeFails p (effectiveUnit s.cfg r a).toNat (effectiveLen p a) a.code.toNat = true := by
    rw [hunit, hlen, argRangeFails_iff]
    omega
  obtain ⟨bits, hres⟩ := resolveSend_of_inRange hen ((protocolAt_of_le h1 h6).trans hr) hrange
  have honair : (BitVec.ofNat Config.bitIdxW (if p = 6 then 2 * effectiveLen p a else effectiveLen p a)).toNat =
      if p = 6 then 2 * l else l := by
    rw [hlen]
    apply onAirLen_toNat
    split <;> omega
  have hexec : exec (.send a) s = .next (acceptSend a s) := execSend_of_idle hidle hwait
  rw [acceptSend, hres] at hexec
  exact ⟨_, hexec, rfl, rfl, hunit, honair, rfl, rfl, rfl, rfl, rfl, rfl, rfl, rfl⟩

/-- Settles O36: the code is latched as it is, and the check of the argument range says that it fits the length. -/
theorem sentBitsAreTheCode : Obligations.SentBitsAreTheCode := by
  intro s t a hidle hwait h hbusy hne j
  obtain ⟨x, hx, rfl⟩ := execSend_loaded hidle h hbusy
  obtain ⟨-, -, r, l, -, -, -, -, -, h64, hcode, -, hplain⟩ := resolveSend_ok hx
  obtain ⟨hlen, hbits⟩ := hplain hne
  have hl : (BitVec.ofNat Config.bitIdxW x.onAirLen).toNat = l := by rw [hlen, onAirLen_toNat h64]
  have hb : BitVec.ofNat Config.maxLen x.onAirBits = a.code := by rw [hbits]; exact BitVec.ofNat_toNat ..
  simp only [State.silent_tx, State.setTx_tx, Transmitter.load_bits, Transmitter.load_bitLength, hl, hb]
  exact getLsbD_of_codeFits hcode j

/-- Settles O37, by the bits of the doubled string (`nexaDouble_testBit`). -/
theorem nexaBitsAreDoubled : Obligations.NexaBitsAreDoubled := by
  intro s t a hidle hwait h hbusy h6
  obtain ⟨x, hx, rfl⟩ := execSend_loaded hidle h hbusy
  obtain ⟨-, -, r, l, -, -, -, hl, -, -, hcode, hnexa, -⟩ := resolveSend_ok hx
  have h6' : x.proto.toNat = 6 := h6
  obtain ⟨h32, hlen, hbits⟩ := hnexa h6'
  have hair : (BitVec.ofNat Config.bitIdxW x.onAirLen).toNat = 2 * l := by rw [hlen, onAirLen_toNat (by omega)]
  have hsource : l = if a.lv then a.len.toNat else 32 := by rw [hl, h6', effectiveLen_eq]; simp
  have hbit (j : Nat) : (BitVec.ofNat Config.maxLen x.onAirBits).getLsbD j =
      (decide (j < 2 * l) && (if j % 2 = 1 then a.code.getLsbD (j / 2) else !a.code.getLsbD (j / 2))) := by
    rw [hbits, BitVec.getLsbD_ofNat, nexaDouble_testBit]
    by_cases hj : j < 2 * l
    · rw [decide_eq_true (show j < Config.maxLen by rw [Config.maxLen_eq]; omega)]
      rfl
    · simp [hj]
  simp only [State.silent_tx, State.setTx_tx, Transmitter.load_bits, Transmitter.load_bitLength, hair, hbit]
  refine ⟨l, rfl, hsource, hcode, fun j hj => ⟨?_, ?_⟩, fun j hj => ?_⟩
  · have hin : 2 * j + 1 < 2 * l := by omega
    have hodd : (2 * j + 1) % 2 = 1 := by omega
    have hhalf : (2 * j + 1) / 2 = j := by omega
    simp [hin, hodd, hhalf]
  · have hin : 2 * j < 2 * l := by omega
    simp [hin]
  · simp [Nat.not_lt.mpr hj]
end

section
/-! Edges and decodes, case by case (41_edge_capture.md section 2): what the store at the end of an edge leaves in the ring,
which edges make no message, and the six attempts as DECODEs called by themselves. -/

namespace Sys2Proof.Machine

/-- After a store at `n`: the counter is past it, the entry is there, and every other entry is the old one (R140). -/
theorem Capture.store_at {c : Capture} {f : Vector Duration Config.capacity} {n : Nat} (d : Duration)
    (hf : c.frame = f) (hn : c.changeCount.val = n) (hlt : n < 67) :
    (c.store d).changeCount.val = n + 1 ∧ frameAt (c.store d).frame n = d ∧
      ∀ j, j ≠ n → frameAt (c.store d).frame j = frameAt f j := by
  subst hf hn
  exact ⟨store_count hlt, store_newest hlt, fun j hj => store_other hj⟩

/-! ## Edges that make no message -/

/-- An edge that does not decode leaves the message and its flag (R132, R162). -/
theorem execEdge_of_not_decodes {s : State} (h : ¬ EdgeDecodes s) :
    ∃ t, execEdge s = .next t ∧ t.msg = s.msg ∧ t.msgPending = s.msgPending := by
  obtain ⟨t, ht⟩ : ∃ t, execEdge s = .next t := by
    unfold execEdge
    split <;> exact ⟨_, rfl⟩
  refine ⟨t, ht, ?_, ?_⟩
  · rcases execEdge_clearPending (.decoded true) ht with ⟨hd, -⟩ | ⟨-, hmsg, -⟩
    · exact absurd hd h
    · exact hmsg
  · rw [Bool.eq_iff_iff, execEdge_msgPending ht, or_iff_left h]

/-- With no tolerance no attempt of an edge succeeds (R168). -/
theorem decodeAttempt_zero_tol {s : State} (h : s.cfg.tolerancePercent = 0) (cc p : Nat) :
    decodeAttempt s cc p = none := by
  unfold decodeAttempt
  split
  next => rfl
  next r _ =>
    rw [h]
    exact decodeFrame_zero_tol ..

/-! ## The attempts of an edge, as DECODEs -/

/-- A DECODE of one of the six protocols is the attempt of an edge, committed and answered (R155). -/
theorem execDecodeTry_of_attempt {s : State} {p : Nat} {cc : Fin Config.capacity} (h1 : 1 ≤ p) (h6 : p ≤ 6) :
    execDecodeTry (BitVec.ofNat 8 p) cc s =
      (decodeAttempt s cc.val p).elim (.next (s.respond (.decoded false)))
        fun m => .next ((s.commitMessage m).respond (.decoded true)) := by
  have hid : (BitVec.ofNat 8 p).toNat = p := Nat.mod_eq_of_lt (by omega)
  obtain ⟨r, hr⟩ := protocolAt_isSome (c := s.catalog) ((isProtocolId_iff p).mpr ⟨h1, h6⟩)
  rw [execDecodeTry_of_record (r := r) (by rw [hid]; exact hr), hid]
  simp only [decodeAttempt, hr]
  cases decodeFrame r p s.cap.frame s.cfg.tolerancePercent.toNat cc.val s.now <;> rfl

/-- The frame that ends, one entry shorter, is a frame of the ring. -/
theorem shorterFrame_val (c : Capture) : (Fin.ofNat Config.capacity (c.changeCount.val - 1)).val = c.changeCount.val - 1 := by
  have hlt : c.changeCount.val < 67 + 1 := c.changeCount.isLt
  exact Nat.mod_eq_of_lt (show _ < 67 by omega)

end Sys2Proof.Machine

open Sys2Proof Sys2Proof.Machine

/-- Settles O20: the frame has at most 66 entries, so the code is below 2^33 and nothing is cut. -/
theorem decodedNumbersFitTheirRegisters : Obligations.DecodedNumbersFitTheirRegisters := by
  intro r p f tol cc now m hp h
  obtain ⟨code, hread, hlt, hlen, hne, rfl⟩ := decodeFrame_some h
  have hcc : cc.val < 67 := cc.isLt
  have hcode : code < 2 ^ 33 := hlt.trans_le (Nat.pow_le_pow_right (by decide) (by omega))
  have hunit : derivedUnit r f < 2 ^ 64 := (Nat.div_le_self ..).trans_lt (duration_lt _)
  have hc : (BitVec.ofNat Config.codeW code).toNat = code := Nat.mod_eq_of_lt (hcode.trans (by decide))
  have hu : (BitVec.ofNat Config.durW (derivedUnit r f)).toNat = derivedUnit r f := Nat.mod_eq_of_lt hunit
  have hl : (BitVec.ofNat Config.msgLenW (cc.val / 2)).toNat = cc.val / 2 :=
    Nat.mod_eq_of_lt (show cc.val / 2 < 2 ^ 8 by omega)
  have hid : (BitVec.ofNat Config.protoIdW p).toNat = p := Nat.mod_eq_of_lt hp
  refine ⟨?_, ?_, hu, hl, hid⟩
  · rwa [hc]
  · rwa [hc]

/-- Settles O21: an edge that decodes needs an attempt that succeeds. -/
theorem zeroToleranceMakesNoMessage : Obligations.ZeroToleranceMakesNoMessage := by
  intro s htol
  refine execEdge_of_not_decodes ?_
  rintro ⟨-, -, -, -, p, m, -, -, hm⟩
  cases (decodeAttempt_zero_tol htol ..).symm.trans hm

/-- Settles O23. -/
theorem dataEdgeIsStored : Obligations.DataEdgeIsStored := by
  intro s d hen hd hshort hlt
  obtain rfl : edgeDuration s = d := BitVec.eq_of_toNat_eq ((tsub_toNat ..).trans hd.symm)
  have hguard : (s.cap.stamp s.now).guardOverflow = s.cap.stamp s.now := Capture.guardOverflow_eq_self hlt
  have hexec : exec .edge s = _ := execEdge_enabled hen
  rw [edgeStep_short hshort, hguard] at hexec
  exact ⟨_, hexec, rfl, rfl, rfl, Capture.store_at _ rfl rfl hlt⟩

/-- Settles O24. -/
theorem overflowingEdgeRestartsTheFrame : Obligations.OverflowingEdgeRestartsTheFrame := by
  rintro s _ hen rfl hshort hfull
  have hguard : (s.cap.stamp s.now).guardOverflow = _ := Capture.guardOverflow_full hfull
  have hexec : exec .edge s = _ := execEdge_enabled hen
  rw [edgeStep_short hshort, hguard] at hexec
  exact ⟨_, hexec, rfl, rfl, rfl, Capture.store_at _ rfl rfl (by decide)⟩

/-- Settles O25. -/
theorem unmatchedLongGapKeepsTheRepeatCount : Obligations.UnmatchedLongGapKeepsTheRepeatCount := by
  rintro s _ hen rfl hlong hfar
  have hexec : exec .edge s = _ := execEdge_enabled hen
  rw [edgeStep_unmatched hlong hfar] at hexec
  exact ⟨_, hexec, rfl, rfl, rfl, Capture.store_at _ rfl rfl (by decide)⟩

/-- Settles O26. -/
theorem firstMatchIsOnlyCounted : Obligations.FirstMatchIsOnlyCounted := by
  rintro s _ hen rfl hlong hnear hfirst
  have hexec : exec .edge s = _ := execEdge_enabled hen
  rw [edgeStep_counted hlong hnear (by rw [hfirst]; decide)] at hexec
  have hone : s.cap.repeatCount + 1 = 1 := by rw [hfirst]; rfl
  exact ⟨_, hexec, rfl, rfl, hone, Capture.store_at _ rfl rfl (by decide)⟩

/-- Settles O27: the attempts of the edge are the DECODEs of the statement, on the frame one entry shorter. -/
theorem secondMatchTriesTheProtocolsInOrder : Obligations.SecondMatchTriesTheProtocolsInOrder := by
  rintro s _ hen rfl hlong hnear hsecond try_
  have hfails (q : Nat) (h1 : 1 ≤ q) (h6 : q ≤ 6) (hq : decodeAttempt s (s.cap.changeCount.val - 1) q = none) :
      ∃ v, try_ q = .next v ∧ v.response = some (.decoded false) := by
    refine ⟨s.respond (.decoded false), (execDecodeTry_of_attempt h1 h6).trans ?_, rfl⟩
    rw [shorterFrame_val, hq]
    rfl
  obtain ⟨hcount, hnewest, hold⟩ := Capture.store_at (c := (s.cap.stamp s.now).countMatch.clearRepeat.startFrame)
    (n := 0) (edgeDuration s) rfl rfl (by decide)
  have hexec : exec .edge s = _ := execEdge_enabled hen
  rw [edgeStep_second hlong hnear hsecond] at hexec
  rcases tryProtocols_cases (s.setCap (s.cap.stamp s.now).countMatch) (s.cap.changeCount.val - 1) with
    ⟨p, m, h1, h6, hm, hbefore, e⟩ | ⟨hnone, e⟩
  · rw [e] at hexec
    have hsucc : try_ p = .next ((s.commitMessage m).respond (.decoded true)) := by
      refine (execDecodeTry_of_attempt h1 h6).trans ?_
      rw [shorterFrame_val, ← decodeAttempt_counters, hm]
      rfl
    exact ⟨_, hexec, rfl, rfl, rfl, hcount, hnewest, hold, .inl ⟨p, _, h1, h6, hsucc, rfl, rfl, rfl,
      fun q hq1 hqp => hfails q hq1 (by omega) (hbefore q hq1 hqp)⟩⟩
  · rw [e] at hexec
    exact ⟨_, hexec, rfl, rfl, rfl, hcount, hnewest, hold,
      .inr ⟨fun q h1 h6 => hfails q h1 h6 (hnone q h1 h6), rfl, rfl⟩⟩

/-- Settles O28: such a long gap is at least 200 microseconds away from the entry, so it does not match. -/
theorem shortFirstEntryNeverMatches : Obligations.ShortFirstEntryNeverMatches := by
  intro s hen hshort hlong
  have hfar : 200 ≤ absdiff (edgeDuration s).toNat (frameAt s.cap.frame 0).toNat := by
    have hlong' : 5000 < (edgeDuration s).toNat := hlong
    rw [absdiff, if_pos (by omega)]
    omega
  obtain ⟨t, ht, hframe, -, hrep, -⟩ := unmatchedLongGapKeepsTheRepeatCount s _ hen rfl hlong hfar
  exact ⟨t, ht, hrep, by rw [hframe], by rw [hframe]⟩
end

section
/-! The segments (R94, R208 to R210): which one the state selects, the exact state a segment ends in, and the stops of a
segment or a step without its record or bit (R67, R224). -/

namespace Sys2Proof.Machine

/-! ## The selected segment -/

/-- A zero or a one is selected in `BITS` by the current bit (R208, R209). -/
theorem segKind_eq_bit_iff {t : Transmitter} (b : Bool) :
    segKind t = some (if b then .one else .zero) ↔
      t.state = .bits ∧ t.bitIdx.toNat < t.bitLength.toNat ∧
        t.bits.getLsbD (t.bitLength.toNat - 1 - t.bitIdx.toNat) = b := by
  unfold segKind currentBit
  cases t.state with
  | idle | quiet => simp
  | leadSync | trailSync => cases b <;> simp
  | bits =>
    by_cases hlt : t.bitIdx.toNat < t.bitLength.toNat
    · cases b <;> cases t.bits.getLsbD (t.bitLength.toNat - 1 - t.bitIdx.toNat) <;> simp [hlt]
    · simp [hlt]

/-- A sync is selected in the two sync states (R210). -/
theorem segKind_eq_sync_iff {t : Transmitter} :
    segKind t = some .sync ↔ t.state = .leadSync ∨ t.state = .trailSync := by
  unfold segKind
  cases t.state with
  | idle | quiet | leadSync | trailSync => simp
  | bits => cases currentBit t with
    | none => simp
    | some b => cases b <;> simp

/-! ## The state after a segment -/

/-- `pending_delay_us` holds the high phase of a segment exactly (R45). -/
theorem highDelay_toNat (r : Protocol) (k : SegKind) (u : PulseUnit) :
    (BitVec.ofNat Config.delayW (highRatio r k * u.toNat)).toNat = highRatio r k * u.toNat := by
  cases k <;> exact delay_toNat ..

/-- `pending_delay_us` holds the low phase of a segment exactly (R45). -/
theorem lowDelay_toNat (r : Protocol) (k : SegKind) (u : PulseUnit) :
    (BitVec.ofNat Config.delayW (lowRatio r k * u.toNat)).toNat = lowRatio r k * u.toNat := by
  cases k <;> exact delay_toNat ..

/-- The instant at which the phase now running is over (R216). -/
def State.phaseEnd (s : State) : Time := s.now + BitVec.ofNat Config.timeW (phaseWait s)

/-- The state after the TX.RISE of a segment of kind `k`, at the first instant it is enabled (R213). -/
def State.afterRise (s : State) (r : Protocol) (k : SegKind) : State :=
  ((s.setNow s.phaseEnd).setTx (s.tx.rise (highRatio r k * s.tx.pulseUnitUs.toNat) s.phaseEnd)).silent

/-- The instant at which a segment of kind `k` goes low: its high phase after its TX.RISE (R208 to R210). -/
def State.segmentFall (s : State) (r : Protocol) (k : SegKind) : Time :=
  s.phaseEnd + BitVec.ofNat Config.timeW (highRatio r k * s.tx.pulseUnitUs.toNat)

/-- The state after a whole segment of kind `k`: low, with the low phase pending, and the sequencer moved on (R214). -/
def State.afterSegment (s : State) (r : Protocol) (k : SegKind) : State :=
  ((s.setNow (s.segmentFall r k)).setTx
    ((s.tx.drop (lowRatio r k * s.tx.pulseUnitUs.toNat) (s.segmentFall r k)).advance (s.segmentFall r k))).silent

/-- The phase that has just begun is over after its whole delay (R216). -/
theorem phaseEnd_of_start {s : State} (h : s.tx.segmentStart = s.now) :
    s.phaseEnd = s.now + BitVec.ofNat Config.timeW s.tx.pendingDelay.toNat := by
  rw [State.phaseEnd, phaseWait, phaseElapsed, h, tsub_same]
  rfl

/-- The high phase ends at the fall of the segment. -/
theorem phaseEnd_afterRise (s : State) (r : Protocol) (k : SegKind) :
    (s.afterRise r k).phaseEnd = s.segmentFall r k := by
  rw [phaseEnd_of_start rfl]
  exact congrArg (s.phaseEnd + BitVec.ofNat Config.timeW ·) (highDelay_toNat ..)

/-- The low phase ends a whole segment after the start (R218). -/
theorem phaseEnd_afterSegment (s : State) (r : Protocol) (k : SegKind) :
    (s.afterSegment r k).phaseEnd =
      s.phaseEnd + BitVec.ofNat Config.timeW ((highRatio r k + lowRatio r k) * s.tx.pulseUnitUs.toNat) := by
  have hdelay : (s.afterSegment r k).tx.pendingDelay.toNat = lowRatio r k * s.tx.pulseUnitUs.toNat :=
    (congrArg BitVec.toNat (Transmitter.advance_pendingDelay ..)).trans (lowDelay_toNat ..)
  rw [phaseEnd_of_start (Transmitter.advance_segmentStart ..), hdelay, Nat.add_mul, BitVec.ofNat_add, ← BitVec.add_assoc]
  rfl

section
variable {s : State} {r : Protocol} {k : SegKind} (hk : segKind s.tx = some k) (hpin : s.tx.pin = false)
  (hr : protocolAt s.catalog s.tx.protocolId.toNat = some r)
include hk hr hpin

theorem txRise_phaseEnd : txRise s.tx.state (s.later (phaseWait s)) = .next (s.afterRise r k) :=
  txRise_next.mpr ⟨rfl, hpin, phaseOver_wait s, k, r, hk, hr, rfl⟩

omit hpin in
theorem txFall_afterRise :
    txFall s.tx.state ((s.afterRise r k).later (phaseWait (s.afterRise r k))) = .next (s.afterSegment r k) := by
  refine txFall_next.mpr ⟨rfl, rfl, phaseOver_wait (s.afterRise r k), k, r, hk, hr, ?_⟩
  have hfall : ((s.afterRise r k).later (phaseWait (s.afterRise r k))).now = s.segmentFall r k := phaseEnd_afterRise s r k
  rw [hfall, State.later, State.afterSegment, ← hfall]
  rfl

/-- A selected segment with the pin low: one TX.RISE and one TX.FALL, each at its first instant. -/
theorem segment_of_selected : segment k s.tx.state s = .next (s.afterSegment r k) :=
  segment_next.mpr ⟨hk, _, txRise_phaseEnd hk hpin hr, txFall_afterRise hk hr⟩

end

/-! ## The stops -/

section
variable {s : State} {st : TxState} {f : Fault}

theorem txRise_of_error (hst : s.tx.state = st) (hpin : s.tx.pin = false) (hover : phaseOver s = true)
    (hcur : currentSegment s = .error f) : txRise st s = .fault f := by
  rw [txRise, if_pos ⟨hst, hpin, hover⟩, hcur]

theorem txFall_of_error (hst : s.tx.state = st) (hpin : s.tx.pin = true) (hover : phaseOver s = true)
    (hcur : currentSegment s = .error f) : txFall st s = .fault f := by
  rw [txFall, if_pos ⟨hst, hpin, hover⟩, hcur]

/-- The only way to have no segment in an active state (R224). -/
theorem currentSegment_of_noBit (hst : s.tx.state = .bits) (hidx : s.tx.bitLength.toNat ≤ s.tx.bitIdx.toNat) :
    currentSegment s = .error .noCurrentBit := by
  simp only [currentSegment, segKind, hst, currentBit, if_neg (Nat.not_lt.mpr hidx), Option.map_none]

theorem currentSegment_of_noRecord {k : SegKind} (hk : segKind s.tx = some k)
    (hr : protocolAt s.catalog s.tx.protocolId.toNat = none) : currentSegment s = .error .noSuchRecord := by
  simp only [currentSegment, hk, hr]

/-- A selected segment with the pin low stops where there is no record (R67). -/
theorem segment_of_noRecord {k : SegKind} (hst : s.tx.state = st) (hk : segKind s.tx = some k) (hpin : s.tx.pin = false)
    (hr : protocolAt s.catalog s.tx.protocolId.toNat = none) : segment k st s = .fault .noSuchRecord := by
  have hcur : currentSegment (s.later (phaseWait s)) = .error .noSuchRecord := currentSegment_of_noRecord hk hr
  have hrise : txRise st (s.later (phaseWait s)) = .fault .noSuchRecord :=
    txRise_of_error (s := s.later (phaseWait s)) hst hpin (phaseOver_wait s) hcur
  rw [segment, if_pos hk, hrise, andThen]

end

/-- A segment is refused when it is not selected, or when the pin is high (R208 to R210). -/
theorem segment_refused_iff {k : SegKind} {st : TxState} {s : State} (hst : segKind s.tx = some k → s.tx.state = st) :
    segment k st s = .refused .notEnabled ↔ ¬ segKind s.tx = some k ∨ s.tx.pin = true := by
  by_cases hk : segKind s.tx = some k
  case neg => simp [segment, hk]
  obtain rfl := hst hk
  cases hpin : s.tx.pin with
  | true =>
    have hrise : txRise s.tx.state (s.later (phaseWait s)) = .refused .notEnabled :=
      txRise_refused_iff.mpr fun h => Bool.false_ne_true (h.2.1.symm.trans hpin)
    simp [segment, hk, hrise, andThen]
  | false =>
    cases hr : protocolAt s.catalog s.tx.protocolId.toNat with
    | some r => simp [segment_of_selected hk hpin hr, hk]
    | none => simp [segment_of_noRecord rfl hk hpin hr, hk]

end Sys2Proof.Machine

open Sys2Proof Sys2Proof.Machine

/-- Settles O43: the segment is the one the state selects, and its TX.RISE and its TX.FALL are those of the two steps. -/
theorem segmentsLastTheirNominalTimes : Obligations.SegmentsLastTheirNominalTimes := by
  intro s i rise fall r high low hcase hpin h1 h6 hcat start stop
  have hr := (protocolAt_of_le h1 h6).trans hcat
  obtain ⟨k, hk, hhigh, hlow, hrise, hfall, hi⟩ : ∃ k, segKind s.tx = some k ∧ highRatio r k = high.toNat ∧
      lowRatio r k = low.toNat ∧ exec rise = txRise s.tx.state ∧ exec fall = txFall s.tx.state ∧
      exec i s = segment k s.tx.state s := by
    rcases hcase with ⟨rfl, rfl, rfl, rfl, rfl, hst, hbit⟩ | ⟨rfl, rfl, rfl, rfl, rfl, hst, hbit⟩ |
      ⟨rfl, rfl, rfl, rfl, rfl, hst⟩ | ⟨rfl, rfl, rfl, rfl, rfl, hst⟩
    · exact ⟨.zero, (segKind_eq_bit_iff false).mpr ⟨hst, hbit⟩, rfl, rfl, hst ▸ rfl, hst ▸ rfl, hst ▸ rfl⟩
    · exact ⟨.one, (segKind_eq_bit_iff true).mpr ⟨hst, hbit⟩, rfl, rfl, hst ▸ rfl, hst ▸ rfl, hst ▸ rfl⟩
    · exact ⟨.sync, segKind_eq_sync_iff.mpr (.inl hst), rfl, rfl, hst ▸ rfl, hst ▸ rfl, rfl⟩
    · exact ⟨.sync, segKind_eq_sync_iff.mpr (.inr hst), rfl, rfl, hst ▸ rfl, hst ▸ rfl, rfl⟩
  have hstop : s.segmentFall r k = stop := by rw [State.segmentFall, hhigh]; rfl
  have hlater : (s.afterRise r k).later (phaseWait (s.afterRise r k)) = (s.afterRise r k).setNow stop :=
    congrArg (s.afterRise r k).setNow ((phaseEnd_afterRise s r k).trans hstop)
  refine ⟨s.afterRise r k, s.afterSegment r k, ?_, rfl, ?_, ?_, ?_, ?_, ?_, ?_⟩
  · rw [hrise]
    exact txRise_phaseEnd hk hpin hr
  · rw [hfall]
    exact (congrArg _ hlater.symm).trans (txFall_afterRise hk hr)
  · rw [hi]
    exact segment_of_selected hk hpin hr
  · rw [← hstop]
    rfl
  · exact Transmitter.advance_pin ..
  · rw [← hstop]
    exact Transmitter.advance_segmentStart ..
  · rw [← hlow]
    exact (congrArg BitVec.toNat (Transmitter.advance_pendingDelay ..)).trans (lowDelay_toNat ..)

/-- Settles O44. -/
theorem segmentsAreRefusedUnlessSelected : Obligations.SegmentsAreRefusedUnlessSelected := by
  intro s bit
  have hbits (b : Bool) (hk : segKind s.tx = some (if b then .one else .zero)) : s.tx.state = .bits :=
    ((segKind_eq_bit_iff b).mp hk).1
  refine ⟨?_, ?_, ?_⟩
  · exact (segment_refused_iff (hbits false)).trans (or_congr_left (not_congr (segKind_eq_bit_iff false)))
  · exact (segment_refused_iff (hbits true)).trans (or_congr_left (not_congr (segKind_eq_bit_iff true)))
  · exact (segment_refused_iff fun _ => rfl).trans (or_congr_left (not_congr segKind_eq_sync_iff))

/-- Settles O45: the segment of the state is missing, or its record is. -/
theorem missingRecordsAndBitsAreFaults : Obligations.MissingRecordsAndBitsAreFaults := by
  refine ⟨fun p cc s hbad => ?_, fun s i hi hover => ?_, fun s i hi hpin hbad => ?_⟩
  · show execDecodeTry p cc s = _
    rw [execDecodeTry, protocolAt_of_bad hbad]
  · have hover := (phaseOver_iff s).mpr hover
    obtain ⟨hact, hfault⟩ : (s.tx.state = .leadSync ∨ s.tx.state = .bits ∨ s.tx.state = .trailSync) ∧
        ∀ f, currentSegment s = .error f → exec i s = .fault f := by
      rcases hi with ⟨rfl, hst, hpin⟩ | ⟨rfl, hst, hpin⟩ | ⟨rfl, hst, hpin⟩ | ⟨rfl, hst, hpin⟩ | ⟨rfl, hst, hpin⟩ |
        ⟨rfl, hst, hpin⟩
      · exact ⟨.inl hst, fun _ => txRise_of_error hst hpin hover⟩
      · exact ⟨.inl hst, fun _ => txFall_of_error hst hpin hover⟩
      · exact ⟨.inr (.inl hst), fun _ => txRise_of_error hst hpin hover⟩
      · exact ⟨.inr (.inl hst), fun _ => txFall_of_error hst hpin hover⟩
      · exact ⟨.inr (.inr hst), fun _ => txRise_of_error hst hpin hover⟩
      · exact ⟨.inr (.inr hst), fun _ => txFall_of_error hst hpin hover⟩
    refine ⟨fun hst hidx => hfault _ (currentSegment_of_noBit hst hidx), fun hidx hbad => hfault _ ?_⟩
    have hseg : s.tx.AtSegment := hact.imp_right (Or.imp_left fun hst => ⟨hst, hidx hst⟩)
    obtain ⟨k, hk⟩ : ∃ k, segKind s.tx = some k := (hseg.exists_kind default).imp fun _ h => h.1
    exact currentSegment_of_noRecord hk (protocolAt_of_bad hbad)
  · have hr := protocolAt_of_bad (c := s.catalog) hbad
    rcases hi with ⟨rfl, hst⟩ | ⟨rfl | rfl, hst, hlt, hbit⟩
    · exact segment_of_noRecord rfl (segKind_eq_sync_iff.mpr hst) hpin hr
    · have hzero : s.tx.bits.getLsbD (s.tx.bitLength.toNat - 1 - s.tx.bitIdx.toNat) = false := by simpa using hbit
      exact segment_of_noRecord hst ((segKind_eq_bit_iff false).mpr ⟨hst, hlt, hzero⟩) hpin hr
    · exact segment_of_noRecord hst ((segKind_eq_bit_iff true).mpr ⟨hst, hlt, hbit.mpr rfl⟩) hpin hr
end

section
/-! A whole transmission with no turn of the environment to come (44_transmitter.md sections 2 to 4): two steps of the block
are a segment, the segments of the bits, of a pass and of all passes follow one another, each as long as its ratios say, and
the quiet period comes last. -/

namespace Sys2Proof.Machine

/-! ## Two steps of the block are a segment -/

/-- A run goes on from the next state. -/
theorem coreRun_of_step {M : Host.Core} {s t : M.State} (h : M.step s = .next t) (n : Nat) :
    M.run (n + 1) s = M.run n t := by
  rw [Host.Core.run, h]

theorem run_of_step {s t : State} (h : step s = .next t) (n : Nat) :
    Host.Core.run core (n + 1) s = Host.Core.run core n t :=
  coreRun_of_step (M := core) h n

/-- In an active state with no turn to come, the block takes the transition that the pin level selects, at the end of the
phase (R102, R216). -/
theorem step_of_active {s : State} (ht : s.turns = []) (hact : s.tx.state.active = true) :
    step s = (if s.tx.pin then txFall else txRise) s.tx.state (s.later (phaseWait s)) := by
  have hwait : txWait s = some (phaseWait s) := by
    apply txWait_active
    cases hst : s.tx.state <;> simp [hst, TxState.active] at hact ⊢
  obtain ⟨i, hi⟩ := decode_txPattern_of_txWait hwait
  rw [step, nextStep_tx hwait (by simp [ht]), takeTxStep_of_decode hi]
  rcases txStep_cases hi with ⟨st, -, hp, -, hexec⟩ | ⟨st, -, hp, -, hexec⟩ | ⟨hp, -⟩
  · obtain ⟨rfl, hpin⟩ := txPattern_eq_iff.mp hp
    simp [hpin, hexec]
  · obtain ⟨rfl, hpin⟩ := txPattern_eq_iff.mp hp
    simp [hpin, hexec]
  · obtain ⟨hst, -⟩ := txPattern_eq_iff.mp hp
    simp [hst, TxState.active] at hact

/-- The transmitter between two segments, with nothing to disturb it: no turn to come, the pin low, its record there. -/
structure Undisturbed (r : Protocol) (s : State) : Prop where
  turns : s.turns = []
  pin : s.tx.pin = false
  record : protocolAt s.catalog s.tx.protocolId.toNat = some r

/-- From `s` to `t` the block emits `n` segments, `units` pulse units long, and does nothing else: two steps for each
segment, what SEND latched and every other group of the state kept, and the running phase over that much later. -/
structure Emits (n units : Nat) (s t : State) : Prop where
  run : ∀ m, Host.Core.run core (2 * n + m) s = Host.Core.run core m t
  frame : t = { s with tx := t.tx, now := t.now, response := t.response }
  latched : t.tx = { s.tx with
    state := t.tx.state, bitIdx := t.tx.bitIdx, passLeft := t.tx.passLeft, quietStart := t.tx.quietStart,
    segmentStart := t.tx.segmentStart, pendingDelay := t.tx.pendingDelay }
  phaseEnd : t.phaseEnd = s.phaseEnd + BitVec.ofNat Config.timeW (units * s.tx.pulseUnitUs.toNat)

section
variable {n units : Nat} {s t : State} (h : Emits n units s t)
include h

theorem Emits.protocolId : t.tx.protocolId = s.tx.protocolId := (congrArg Transmitter.protocolId h.latched :)
theorem Emits.pulseUnitUs : t.tx.pulseUnitUs = s.tx.pulseUnitUs := (congrArg Transmitter.pulseUnitUs h.latched :)
theorem Emits.bitLength : t.tx.bitLength = s.tx.bitLength := (congrArg Transmitter.bitLength h.latched :)
theorem Emits.bits : t.tx.bits = s.tx.bits := (congrArg Transmitter.bits h.latched :)
theorem Emits.pin : t.tx.pin = s.tx.pin := (congrArg Transmitter.pin h.latched :)

theorem Emits.undisturbed {r : Protocol} (hs : Undisturbed r s) : Undisturbed r t := by
  refine ⟨(congrArg State.turns h.frame :).trans hs.turns, h.pin.trans hs.pin, ?_⟩
  rw [h.protocolId, show t.catalog = s.catalog from (congrArg State.catalog h.frame :)]
  exact hs.record

theorem Emits.trans {n' units' : Nat} {v : State} (h' : Emits n' units' t v) : Emits (n + n') (units + units') s v where
  run m := by rw [Nat.mul_add, Nat.add_assoc, h.run, h'.run]
  frame := by
    conv_lhs => rw [h'.frame, h.frame]
  latched := by
    conv_lhs => rw [h'.latched, h.latched]
  phaseEnd := by
    rw [h'.phaseEnd, h.phaseEnd, h.pulseUnitUs, Nat.add_mul, BitVec.ofNat_add, BitVec.add_assoc]

end

/-- A selected segment is emitted in two steps (R207 to R210). -/
theorem Undisturbed.emits_segment {r : Protocol} {s : State} (hs : Undisturbed r s) {k : SegKind}
    (hk : segKind s.tx = some k) : Emits 1 (highRatio r k + lowRatio r k) s (s.afterSegment r k) where
  run m := by
    have hact := active_of_segKind hk
    have hrise : step s = .next (s.afterRise r k) := by
      rw [step_of_active hs.turns hact, hs.pin]
      exact txRise_phaseEnd hk hs.pin hs.record
    have hfall : step (s.afterRise r k) = .next (s.afterSegment r k) := by
      rw [step_of_active (s := s.afterRise r k) hs.turns hact]
      exact txFall_afterRise hk hs.record
    rw [show 2 * 1 + m = m + 1 + 1 by omega, run_of_step hrise, run_of_step hfall]
  frame := rfl
  latched := by
    refine (Transmitter.advance_keeps _ _).trans ?_
    simp [State.afterSegment, Transmitter.drop, hs.pin]
  phaseEnd := phaseEnd_afterSegment s r k

theorem Emits.of_eq {n n' units units' : Nat} {s t : State} (h : Emits n units s t) (hn : n = n') (hu : units = units') :
    Emits n' units' s t := by
  subst hn hu
  exact h

/-! ## The bits of a pass -/

/-- The length of the segment of bit `k`, in pulse units (R218). -/
def bitUnits (r : Protocol) (t : Transmitter) (k : Nat) : Nat :=
  if t.bits.getLsbD k then r.oneHigh.toNat + r.oneLow.toNat else r.zeroHigh.toNat + r.zeroLow.toNat

/-- The length of the segments of the low `n` bits, in pulse units (R218). -/
def bitsUnits (r : Protocol) (t : Transmitter) (n : Nat) : Nat := ((List.range n).map (bitUnits r t)).sum

theorem bitsUnits_succ (r : Protocol) (t : Transmitter) (n : Nat) :
    bitsUnits r t (n + 1) = bitsUnits r t n + bitUnits r t n := by
  simp [bitsUnits, List.range_succ]

theorem passUnits_eq (r : Protocol) (t : Transmitter) :
    passUnits r t = bitsUnits r t t.bitLength.toNat
      + (if t.protocolId.toNat = 6 then 2 else 1) * (r.syncHigh.toNat + r.syncLow.toNat) := rfl

section
variable {r : Protocol} {s : State} (hs : Undisturbed r s)
include hs

/-- In `BITS` with `d` bits to come after the current one, the current one, bit `d`, is emitted (R207, R208). -/
theorem Undisturbed.emits_bit {d : Nat} (hst : s.tx.state = .bits)
    (hidx : s.tx.bitIdx.toNat + d + 1 = s.tx.bitLength.toNat) :
    ∃ t, Emits 1 (bitUnits r s.tx d) s t ∧ t.tx.passLeft = s.tx.passLeft ∧
      t.tx.bitIdx.toNat = s.tx.bitIdx.toNat + 1 ∧ t.tx.state = if d = 0 then .trailSync else .bits := by
  have hlt : s.tx.bitIdx.toNat < s.tx.bitLength.toNat := by omega
  have hbit : s.tx.bitLength.toNat - 1 - s.tx.bitIdx.toNat = d := by omega
  have hlast : (s.tx.bitIdx.toNat + 1 = s.tx.bitLength.toNat) = (d = 0) := propext (by omega)
  let k : SegKind := if s.tx.bits.getLsbD d then .one else .zero
  have hk : segKind s.tx = some k := (segKind_eq_bit_iff _).mpr ⟨hst, hlt, by rw [hbit]⟩
  have hunits : highRatio r k + lowRatio r k = bitUnits r s.tx d := by
    unfold k bitUnits
    cases s.tx.bits.getLsbD d <;> rfl
  refine ⟨s.afterSegment r k, (hs.emits_segment hk).of_eq rfl hunits, ?_⟩
  let x := s.tx.drop (lowRatio r k * s.tx.pulseUnitUs.toNat) (s.segmentFall r k)
  show (x.advance _).passLeft = _ ∧ (x.advance _).bitIdx.toNat = _ ∧ (x.advance _).state = _
  rw [x.advance_of_bits hst hlt]
  refine ⟨rfl, bitIdx_succ_toNat hlt, ?_⟩
  exact if_congr (iff_of_eq hlast) rfl rfl

end

/-- The bits from the current one down to bit 0 (R207, R208). -/
theorem Undisturbed.emits_bits {r : Protocol} (d : Nat) {s : State} (hs : Undisturbed r s) (hst : s.tx.state = .bits)
    (hidx : s.tx.bitIdx.toNat + d + 1 = s.tx.bitLength.toNat) :
    ∃ t, Emits (d + 1) (bitsUnits r s.tx (d + 1)) s t ∧ t.tx.passLeft = s.tx.passLeft ∧ t.tx.state = .trailSync := by
  induction d generalizing s with
  | zero =>
    obtain ⟨t, ht, hpass, -, htrail⟩ := hs.emits_bit (d := 0) hst hidx
    exact ⟨t, ht.of_eq rfl (by simp [bitsUnits]), hpass, htrail⟩
  | succ d ih =>
    obtain ⟨t, ht, hpass, hnext, hbits⟩ := hs.emits_bit hst hidx
    obtain ⟨v, hv, hpass', htrail⟩ := ih (ht.undisturbed hs) hbits (by rw [ht.bitLength]; omega)
    have hsame : bitUnits r t.tx = bitUnits r s.tx := by unfold bitUnits; rw [ht.bits]
    have hunits : bitsUnits r t.tx (d + 1) = bitsUnits r s.tx (d + 1) := by rw [bitsUnits, bitsUnits, hsame]
    refine ⟨v, (ht.trans hv).of_eq (by omega) ?_, hpass'.trans hpass, htrail⟩
    rw [hunits, bitsUnits_succ r s.tx (d + 1), Nat.add_comm]

/-! ## The passes -/

/-- A transmitter at the first segment of a pass (R204, R207). -/
structure AtPassStart (t : Transmitter) : Prop where
  state : t.state = passStart t
  bitIdx : t.bitIdx = 0
  length : 1 ≤ t.bitLength.toNat

/-- A pass up to its last sync (R207). -/
theorem Undisturbed.emits_toTrail {r : Protocol} {s : State} (hs : Undisturbed r s) (hp : AtPassStart s.tx) :
    ∃ t n units, Emits n units s t ∧ n + 1 = passSegments s.tx ∧
      units + (r.syncHigh.toNat + r.syncLow.toNat) = passUnits r s.tx ∧ t.tx.passLeft = s.tx.passLeft ∧
      t.tx.state = .trailSync := by
  obtain ⟨l, hl⟩ : ∃ l, s.tx.bitLength.toNat = l + 1 := ⟨_, (Nat.sub_add_cancel hp.length).symm⟩
  have hzero : (0 : BitIndex).toNat = 0 := rfl
  by_cases h6 : s.tx.protocolId.toNat = 6
  · have hst : s.tx.state = .leadSync := hp.state.trans (if_pos h6)
    have hlead := hs.emits_segment (segKind_eq_sync_iff.mpr (.inl hst))
    have hnext : (s.afterSegment r .sync).tx = _ :=
      Transmitter.advance_of_leadSync (s.tx.drop (lowRatio r .sync * s.tx.pulseUnitUs.toNat) (s.segmentFall r .sync)) hst _
    obtain ⟨t, ht, hpass, htrail⟩ := (hlead.undisturbed hs).emits_bits l (by rw [hnext])
      (by rw [hlead.bitLength, hnext, hl, hzero, Nat.zero_add])
    have hbits : bitsUnits r (s.afterSegment r .sync).tx = bitsUnits r s.tx := by
      unfold bitsUnits bitUnits
      rw [hlead.bits]
    refine ⟨t, _, _, hlead.trans ht, ?_, ?_, hpass.trans (by rw [hnext]; rfl), htrail⟩
    · rw [passSegments, if_pos h6, hl]
      omega
    · rw [passUnits_eq, if_pos h6, hl, hbits, highRatio, lowRatio]
      omega
  · have hst : s.tx.state = .bits := hp.state.trans (if_neg h6)
    obtain ⟨t, ht, hpass, htrail⟩ := hs.emits_bits l hst (by rw [hp.bitIdx, hl, hzero, Nat.zero_add])
    refine ⟨t, _, _, ht, ?_, ?_, hpass, htrail⟩
    · rw [passSegments, if_neg h6, hl]
    · rw [passUnits_eq, if_neg h6, hl, Nat.one_mul]

section
variable {n units : Nat} {s t : State} (h : Emits n units s t)
include h

theorem Emits.passSegments : passSegments t.tx = passSegments s.tx := by
  rw [Machine.passSegments, Machine.passSegments, h.bitLength, h.protocolId]

theorem Emits.passUnits (r : Protocol) : passUnits r t.tx = passUnits r s.tx := by
  rw [Machine.passUnits, Machine.passUnits, h.bitLength, h.bits, h.protocolId]

theorem Emits.passStart : passStart t.tx = passStart s.tx := by
  rw [Machine.passStart, Machine.passStart, h.protocolId]

end

theorem passLeft_pred_toNat {n : PassCount} (h : 1 ≤ n.toNat) : (n - 1).toNat = n.toNat - 1 :=
  BitVec.toNat_sub_of_le (BitVec.le_def.mpr h)

/-- A transmitter right after its last segment, with the low phase of a sync pending (R207, R214). -/
structure AtQuietStart (r : Protocol) (s : State) : Prop where
  state : s.tx.state = .quiet
  passLeft : s.tx.passLeft = 0
  segmentStart : s.tx.segmentStart = s.now
  quietStart : s.tx.quietStart = s.now
  pendingDelay : s.tx.pendingDelay.toNat = r.syncLow.toNat * s.tx.pulseUnitUs.toNat

/-- The last segment of a pass starts the next pass, or, in the last pass, the quiet period (R207, R214). -/
theorem Undisturbed.emits_trail {r : Protocol} {s : State} (hs : Undisturbed r s) (hst : s.tx.state = .trailSync)
    {p : Nat} (hpass : s.tx.passLeft.toNat = p + 1) (hlen : 1 ≤ s.tx.bitLength.toNat) :
    ∃ t, Emits 1 (r.syncHigh.toNat + r.syncLow.toNat) s t ∧
      if p = 0 then AtQuietStart r t else AtPassStart t.tx ∧ t.tx.passLeft.toNat = p := by
  have hemit := hs.emits_segment (segKind_eq_sync_iff.mpr (.inr hst))
  refine ⟨s.afterSegment r .sync, hemit, ?_⟩
  have hpred : (s.tx.passLeft - 1).toNat = p := by rw [passLeft_pred_toNat (by omega), hpass]; rfl
  let x := s.tx.drop (lowRatio r .sync * s.tx.pulseUnitUs.toNat) (s.segmentFall r .sync)
  have htx : (s.afterSegment r .sync).tx = x.advance (s.segmentFall r .sync) := rfl
  split
  next hp =>
    have hone : s.tx.passLeft = 1 := BitVec.eq_of_toNat_eq (by rw [hpass, hp]; rfl)
    have hdelay : x.pendingDelay.toNat = r.syncLow.toNat * s.tx.pulseUnitUs.toNat := lowDelay_toNat r .sync _
    rw [x.advance_of_last_trailSync hst hone] at htx
    exact ⟨by rw [htx], by rw [htx]; exact BitVec.eq_of_toNat_eq (hpred.trans hp), by rw [htx]; rfl, by rw [htx]; rfl,
      by rw [htx]; exact hdelay⟩
  next hp =>
    have hmore : s.tx.passLeft ≠ 1 := by
      intro e
      rw [e] at hpass
      exact hp (Nat.succ.inj hpass).symm
    rw [x.advance_of_trailSync hst hmore] at htx
    exact ⟨⟨by rw [htx]; rfl, by rw [htx], by rw [htx]; exact hlen⟩, by rw [htx]; exact hpred⟩

/-- A whole pass: its segments up to the last sync, and the last sync (R207, R218). -/
theorem Undisturbed.emits_pass {r : Protocol} {s : State} (hs : Undisturbed r s) (hp : AtPassStart s.tx) {p : Nat}
    (hpass : s.tx.passLeft.toNat = p + 1) :
    ∃ t, Emits (passSegments s.tx) (passUnits r s.tx) s t ∧
      if p = 0 then AtQuietStart r t else AtPassStart t.tx ∧ t.tx.passLeft.toNat = p := by
  obtain ⟨v, n, units, hv, hn, hunits, hleft, htrail⟩ := hs.emits_toTrail hp
  obtain ⟨t, ht, hnext⟩ := (hv.undisturbed hs).emits_trail htrail (by rw [hleft, hpass])
    (by rw [hv.bitLength]; exact hp.length)
  exact ⟨t, (hv.trans ht).of_eq hn hunits, hnext⟩

/-- All passes of a transmission, up to the quiet period (R207, R218). -/
theorem Undisturbed.emits_passes {r : Protocol} (p : Nat) {s : State} (hs : Undisturbed r s) (hp : AtPassStart s.tx)
    (hpass : s.tx.passLeft.toNat = p + 1) :
    ∃ t, Emits ((p + 1) * passSegments s.tx) ((p + 1) * passUnits r s.tx) s t ∧ AtQuietStart r t := by
  induction p generalizing s with
  | zero =>
    obtain ⟨t, ht, hq⟩ := hs.emits_pass (p := 0) hp hpass
    exact ⟨t, ht.of_eq (by omega) (by omega), hq⟩
  | succ p ih =>
    obtain ⟨v, hv, hnext, hleft⟩ := hs.emits_pass (p := p + 1) hp hpass
    obtain ⟨t, ht, hq⟩ := ih (hv.undisturbed hs) hnext hleft
    rw [hv.passSegments, hv.passUnits] at ht
    refine ⟨t, (hv.trans ht).of_eq ?_ ?_, hq⟩
    · rw [Nat.add_one_mul (p + 1), Nat.add_comm]
    · rw [Nat.add_one_mul (p + 1), Nat.add_comm]

/-! ## The quiet period -/

/-- In `QUIET` with no turn to come the block takes TX.DONE at the end of the quiet period (R215, R216). -/
theorem step_of_quiet {s : State} (ht : s.turns = []) (hst : s.tx.state = .quiet) (hpin : s.tx.pin = false) :
    step s = .next (((s.later (500000 - quietElapsed s)).setTx { s.tx with state := .idle, result := .ok }).respond
      (.send .ok)) := by
  have hi : decode (.txPattern (txPattern s.tx)) = .ok .txDone := by
    rw [txPattern_eq_iff.mpr ⟨hst, hpin⟩]
    rfl
  rw [step, nextStep_tx (txWait_quiet hst hpin) (by simp [ht]), takeTxStep_of_decode hi]
  exact execTxDone_next.mpr ⟨hst, hpin, quietOver_wait s, rfl⟩

/-- A pass is at least as long as its last low phase. -/
theorem syncLow_le_passUnits (r : Protocol) (t : Transmitter) : r.syncLow.toNat ≤ passUnits r t := by
  rw [passUnits_eq]
  split <;> omega

/-- The last segment ends the whole emission less its low phase after the start (R218). -/
theorem now_of_quietStart {r : Protocol} {n units : Nat} {s t : State} (h : Emits n units s t) (hq : AtQuietStart r t)
    (hle : r.syncLow.toNat ≤ units) :
    t.now = s.now + BitVec.ofNat 64 (phaseWait s + (units - r.syncLow.toNat) * s.tx.pulseUnitUs.toNat) := by
  have hend := h.phaseEnd
  rw [phaseEnd_of_start hq.segmentStart, hq.pendingDelay, h.pulseUnitUs, State.phaseEnd] at hend
  obtain ⟨rest, rfl⟩ := Nat.exists_eq_add_of_le' hle
  rw [Nat.add_sub_cancel, BitVec.ofNat_add, ← BitVec.add_assoc]
  rw [Nat.add_mul, BitVec.ofNat_add, ← BitVec.add_assoc] at hend
  exact add_right_cancel hend

end Sys2Proof.Machine

open Sys2Proof Sys2Proof.Machine

/-- Settles O47: the passes up to the quiet period, and TX.DONE at its end. -/
theorem aTransmissionLastsItsExactLength : Obligations.ATransmissionLastsItsExactLength := by
  intro s r hok hturns hpin hidx hst hcat u passes wait emission
  have hact : s.tx.state.active = true := by
    rw [hst, passStart]
    split <;> rfl
  obtain ⟨h1, h6⟩ := (isProtocolId_iff _).mp (hok.proto hact)
  have hs : Undisturbed r s := ⟨hturns, hpin, (protocolAt_of_le h1 h6).trans hcat⟩
  obtain ⟨p, hp⟩ : ∃ p, passes = p + 1 := ⟨_, (Nat.sub_add_cancel (hok.passes hact)).symm⟩
  obtain ⟨t, ht, hq⟩ := hs.emits_passes p ⟨hst, hidx, hok.length_pos hact⟩ hp
  rw [← hp] at ht
  have hnow : t.now = s.now + BitVec.ofNat 64 emission := by
    refine now_of_quietStart ht hq ((syncLow_le_passUnits r s.tx).trans ?_)
    exact Nat.le_mul_of_pos_left _ (by omega)
  have htu := ht.undisturbed hs
  have hquiet : quietElapsed t = 0 := by rw [quietElapsed, hq.quietStart, tsub_same]; rfl
  refine ⟨_, (ht.run 1).trans (run_of_step (step_of_quiet htu.turns hq.state htu.pin) 0), rfl, rfl, rfl, htu.pin,
    hq.passLeft, ?_, hq.segmentStart.trans hnow, hq.quietStart.trans hq.segmentStart.symm,
    hq.pendingDelay.trans (by rw [ht.pulseUnitUs]), ?_⟩
  · rw [hquiet, BitVec.ofNat_add, ← BitVec.add_assoc, ← hnow]
    rfl
  · rw [ht.frame]
    exact ⟨rfl, rfl, rfl, rfl, rfl⟩
end
